-- ==== Sys2Proof/Word.lean ====
section
/-! DEFINITION. The engine's word types (00_scope.md R6, R10, R11; 10_state.md R20). -/

namespace Sys2Proof

/-- A 64-bit word: state word, operand, key or result (R6, R10). -/
abbrev Word := BitVec 64

/-- A 32-bit command word (30_encoding.md R61). -/
abbrev CommandWord := BitVec 32

/-- The state vector S[0..311]: 312 words, a fixed-length array (R20). -/
abbrev StateArray := Vector Word 312

end Sys2Proof
end

