-- ==== Sys2Proof/Machine/Constants.lean ====
section
/-! DEFINITION. The fixed constants of 00_scope.md R7, R8 and 42_output.md R124. -/

namespace Sys2Proof.Machine

/-- UPPER_MASK (R7): bits 63..31. -/
def upperMask : Word := 0xFFFFFFFF80000000#64
/-- LOWER_MASK (R7): bits 30..0. -/
def lowerMask : Word := 0x000000007FFFFFFF#64
/-- MAG[1] = MATRIX_A (R7). -/
def matrixA : Word := 0xB5026F5AA96619E9#64

/-- SEED_MULT (R8). -/
def seedMult : Word := 6364136223846793005#64
/-- DEFAULT_SEED (R8). -/
def defaultSeed : Word := 5489#64
/-- BOOT_SEED (R8). -/
def bootSeed : Word := 19650218#64
/-- ARR_MULT1 (R8). -/
def arrMult1 : Word := 3935559000370003845#64
/-- ARR_MULT2 (R8). -/
def arrMult2 : Word := 2862933555777941757#64
/-- ARR_FINAL (R8): 1 << 63. -/
def arrFinal : Word := 0x8000000000000000#64

/-- TEMPER_B1 (R8). -/
def temperB1 : Word := 0x5555555555555555#64
/-- TEMPER_B2 (R8). -/
def temperB2 : Word := 0x71D67FFFEDA60000#64
/-- TEMPER_B3 (R8). -/
def temperB3 : Word := 0xFFF7EEE000000000#64

/-- RA (R124): 1 / (2^53 - 1) rounded to binary64. -/
def recipA : Word := 0x3CA0000000000001#64
/-- RB (R124): 2^-53. -/
def recipB : Word := 0x3CA0000000000000#64
/-- RC (R124): 2^-52. -/
def recipC : Word := 0x3CB0000000000000#64
/-- HALF (R124): 2^-1. -/
def half : Word := 0x3FE0000000000000#64

end Sys2Proof.Machine
end

