-- ==== Sys2Proof/Machine/Float.lean ====
section
/-! DEFINITION. The binary64 primitives of 00_scope.md R14, on 64-bit patterns: exact integer arithmetic, then one
rounding to nearest, ties to even. They are used only on non-negative finite values (42_output.md R125 to R128), and
that is their domain (log entry 5). Every such value is a whole number of units of 2^-1074. -/

namespace Sys2Proof.Machine

/-- The significand of a non-negative finite binary64 pattern, with its leading 1 unless subnormal (R14). -/
def significand (b : Word) : Nat :=
  if b.toNat / 2 ^ 52 = 0 then b.toNat % 2 ^ 52 else b.toNat % 2 ^ 52 + 2 ^ 52

/-- The exponent of the last significand bit, counted from 2^-1074. -/
def exponent (b : Word) : Nat := b.toNat / 2 ^ 52 - 1

/-- The value of a non-negative finite pattern in units of 2^-1074. -/
def unitsOf (b : Word) : Nat := significand b * 2 ^ exponent b

/-- m / 2^sh rounded to the nearest integer, ties to even. -/
def roundShift (m sh : Nat) : Nat :=
  let q := m / 2 ^ sh
  let r := m % 2 ^ sh
  if 2 * r > 2 ^ sh ∨ (2 * r = 2 ^ sh ∧ q % 2 = 1) then q + 1 else q

/-- The pattern of the binary64 value nearest to m * 2^-d units, ties to even; too large a value gives infinity.
With E the exponent of the last kept bit and q the rounded significand the pattern is E * 2^52 + q: for a normal
number the leading 1 of q adds the exponent's bias, and q = 2^53 carries into it. -/
def roundUnits (m d : Nat) : Word :=
  let sh := max d (m.log2 - 52)
  BitVec.ofNat 64 (min ((sh - d) * 2 ^ 52 + roundShift m sh) (0x7FF * 2 ^ 52))

/-- f64(k) (R14): exact for k < 2^53. -/
def f64 (k : Nat) : Word := roundUnits (k * 2 ^ 1074) 0

/-- f64mul(a, b) (R14): the exact product, rounded once. -/
def f64mul (a b : Word) : Word := roundUnits (unitsOf a * unitsOf b) 1074

/-- f64add(a, b) (R14): the exact sum, rounded once. -/
def f64add (a b : Word) : Word := roundUnits (unitsOf a + unitsOf b) 0

end Sys2Proof.Machine
end

