-- ==== Sys2Proof/Config.lean ====
section
/-! DEFINITION. What an implementation fixes (KEY_MAX) and the values the spec leaves unspecified. -/

namespace Sys2Proof

/-- The configuration of one engine: its only parameter is KEY_MAX (00_scope.md R9, 10_state.md R29).
DESIGN CHOICE (log entry 2): it is carried in State as a constant, because the host's `step` takes the state alone. -/
structure Config where
  /-- The largest key-sequence length SEED_ARRAY accepts. -/
  keyMax : Nat
  deriving DecidableEq, Repr

/-- The range R9 gives KEY_MAX: 1 <= KEY_MAX <= 2^24 - 1. -/
abbrev Config.Valid (c : Config) : Prop := 1 ≤ c.keyMax ∧ c.keyMax ≤ 16777215

/-- FREE VALUE (log entry 1): what reset number `epoch` leaves in state word `i`, "each word any u64 value" (R31, R180). -/
opaque Config.resetWord (epoch i : Nat) : Word

/-- FREE VALUE (log entry 1): what reset number `epoch` leaves in index, "any value 0 to 511" (R31, R180). -/
opaque Config.resetIndex (epoch : Nat) : BitVec 9

end Sys2Proof
end

