-- ==== Sys2Proof/Syntax.lean ====
section
/-! DEFINITION. The seven commands of spec/opcode_table.json, and what the host can send the engine. -/

namespace Sys2Proof

/-- A command together with its operand words: one constructor per row of the opcode table (30_encoding.md R64). -/
inductive Instr where
  /-- SEED (R81): the seed's bit pattern. -/
  | seed (v : Word)
  /-- SEED_ARRAY (R83): the key sequence, first key first; LEN is its length (R63). -/
  | seedArray (keys : List Word)
  /-- NEXT_U64 (R122). -/
  | nextU64
  /-- NEXT_I63 (R123). -/
  | nextI63
  /-- NEXT_F64A (R125). -/
  | nextF64A
  /-- NEXT_F64B (R126). -/
  | nextF64B
  /-- NEXT_F64C (R127). -/
  | nextF64C
  deriving DecidableEq, Repr

/-- One thing the host sends: a word on the command input, or the reset signal (R60, 60_exceptions.md R163).
Command words are 32 bits wide and operand words 64 (20_memory.md R43, R45), so the two kinds are told apart. -/
inductive HostInput where
  | command (w : CommandWord)
  | operand (w : Word)
  | reset
  deriving DecidableEq, Repr

end Sys2Proof
end

