-- ==== Sys2Proof/Machine/State.lean ====
section
/-! DEFINITION. The engine's state as plain data, its reset value, and the reasons a step can stop (10_state.md). -/

namespace Sys2Proof.Machine

/-- The spec gives no fault that stops the machine: its three faults latch FAULT and CAUSE and are next states
(60_exceptions.md R150, R156). So no constructor stands here, nothing raises one, and that is safe. -/
inductive Fault where
  deriving DecidableEq, Repr

/-- Why a step has no move. -/
inductive Refusal where
  /-- Raised by an arm of `exec` whose instruction has no meaning yet; none is left. Safe: no claim covers it. -/
  | notModelled (mnemonic : String)
  /-- Raised by `fetch` when a command word arrives while operand words of the command before it are still due:
  the host breaks its duty, and "a model gives no move" to it (R163, U3). Unsafe where a real host does it: no claim
  covers that stream. -/
  | commandInsideOperands
  /-- Raised by `fetch` when an operand word arrives where a command word is due (R163, U3).
  Unsafe where a real host does it: no claim covers that stream. -/
  | operandWithoutCommand
  deriving DecidableEq, Repr

/-- The architectural state of 10_state.md R33, the host's channels (30_encoding.md R60), the ghost counter of R32,
and two fields of the model's own: `epoch` and `config`. -/
structure State where
  /-- S[0..311], the state vector (R20). -/
  S : StateArray
  /-- The output cursor (R23). -/
  index : BitVec 9
  /-- The seeded flag (R24). -/
  seeded : Bool
  /-- FAULT, the sticky fault bit (R25). -/
  fault : Bool
  /-- CAUSE, the code of the first fault taken (R25, R151). -/
  cause : BitVec 4
  /-- The ghost counter of twists since reset (R32); not architectural. -/
  twists : Nat
  /-- The command and reset inputs: what the host has sent and the engine has not yet taken, oldest first (R60, R181). -/
  input : List HostInput
  /-- The result output: every word emitted, oldest first (R60, R66). -/
  results : List Word
  /-- The model's own count of resets, which numbers the free values reset leaves (log entry 1). -/
  epoch : Nat
  /-- The engine's configuration, written by no step (R9, R29; log entry 2). -/
  config : Config
  deriving DecidableEq, Repr

/-- The unspecified contents of S after reset number `epoch` (R31, R180; log entry 1). -/
def unspecifiedArray (epoch : Nat) : StateArray :=
  ⟨⟨(List.range 312).map (Config.resetWord epoch)⟩, by simp⟩

/-- The engine right after reset, waiting for its first command (R31, R180). -/
def State.reset : State where
  S := unspecifiedArray 0
  index := Config.resetIndex 0
  seeded := false
  fault := false
  cause := 0#4
  twists := 0
  input := []
  results := []
  epoch := 0
  config := ⟨16777215⟩

end Sys2Proof.Machine
end

