-- ==== Sys2Proof/Machine/Operands.lean ====
section
/-! DEFINITION. The commands' operand checks (SEED_ARRAY's key count, R153 to R155) and the conversions of a drawn word
into a result word (30_encoding.md R66; 42_output.md R122 to R127). -/

namespace Sys2Proof.Machine

/-- What the key count of a SEED_ARRAY calls for: the checks of R155, steps 4 and 5, in their order. -/
inductive KeyCheck where
  | empty
  | overflow
  | accepted
  deriving DecidableEq, Repr

/-- LEN = 0, LEN > KEY_MAX, or a key sequence the engine accepts (R67, R153, R154). -/
def checkKeys (config : Config) (keys : List Word) : KeyCheck :=
  if keys.length = 0 then .empty
  else if config.keyMax < keys.length then .overflow
  else .accepted

/-- NEXT_U64 returns the drawn word itself (R122). -/
def convertU64 (x : Word) : Word := x

/-- NEXT_I63 returns x >> 1, a logical shift (R123; 90_conflicts.md C4). -/
def convertI63 (x : Word) : Word := x >>> 1

/-- NEXT_F64A returns bits64(f64mul(f64(x >> 11), RA)) (R125). -/
def convertF64A (x : Word) : Word := f64mul (f64 (x >>> 11).toNat) recipA

/-- NEXT_F64B returns bits64(f64mul(f64(x >> 11), RB)) (R126). -/
def convertF64B (x : Word) : Word := f64mul (f64 (x >>> 11).toNat) recipB

/-- NEXT_F64C returns bits64(f64mul(f64add(f64(x >> 12), HALF), RC)) (R127). -/
def convertF64C (x : Word) : Word := f64mul (f64add (f64 (x >>> 12).toNat) half) recipC

end Sys2Proof.Machine
end

