-- ==== Sys2Proof/Machine/Ops.lean ====
section
/-! DEFINITION. The engine's internal operations: ScalarSeed (R80), ArraySeed (R82), Twist (R100, R102), Temper (R121),
Draw (R120), the fault entry (R156), Reset (R180) and the result output (R66). -/

namespace Sys2Proof.Machine

/-! ### Scalar seeding (40_seeding.md R80) -/

/-- x XOR (x >> 62), the step both seedings apply to S[i-1]. -/
def fold62 (x : Word) : Word := x ^^^ (x >>> 62)

/-- S[i] from S[i-1] in ScalarSeed (R80). -/
def scalarNext (prev : Word) (i : Nat) : Word := seedMult * fold62 prev + BitVec.ofNat 64 i

/-- The `n` words S[i], S[i+1], … that follow `prev` = S[i-1]. -/
def scalarTail : Nat → Nat → Word → List Word
  | 0, _, _ => []
  | n + 1, i, prev => scalarNext prev i :: scalarTail n (i + 1) (scalarNext prev i)

theorem scalarTail_length : ∀ n i prev, (scalarTail n i prev).length = n
  | 0, _, _ => rfl
  | n + 1, i, prev => by simp [scalarTail, scalarTail_length n]

/-- The state vector ScalarSeed(v) leaves; it reads no earlier state (R80). -/
def scalarWords (v : Word) : StateArray :=
  ⟨⟨v :: scalarTail 311 1 v⟩, by simp [scalarTail_length]⟩

/-- ScalarSeed(v) (R80). -/
def scalarSeed (v : Word) (s : State) : State :=
  { s with S := scalarWords v, seeded := true, index := 0#9 }

/-! ### Array seeding (R82)

The two loops walk the state array with a cursor i and touch only S[i-1], S[i] and, at the wrap, S[0] and S[311].
`Cursor` is the array split at i. `Machine.inPlaceArraySeed` (Pseudocode.lean) is the loop of R82 as it is written there. -/

/-- The state array with the state cursor i standing between S[i-1] and S[i]. -/
structure Cursor where
  /-- The state cursor (R82). -/
  i : Nat
  /-- S[i-1], S[i-2], …, S[0]. -/
  below : List Word
  /-- S[i], S[i+1], …, S[311]. -/
  above : List Word
  deriving DecidableEq, Repr

/-- The words in array order, S[0] first. -/
def Cursor.words (c : Cursor) : List Word := c.below.reverse ++ c.above

/-- "if i = 312: S[0] <- S[311]; i <- 1" (R82): i is 312 exactly when no word stands above the cursor. -/
def Cursor.wrap (c : Cursor) : Cursor :=
  match c.above, c.below with
  | [], last :: rest => ⟨1, [last], (last :: rest).reverse.tail⟩
  | _, _ => c

/-- One loop step: S[i] <- f S[i-1] S[i]; i <- i + 1; then the wrap test (R82). -/
def Cursor.update (c : Cursor) (f : Word → Word → Word) : Cursor :=
  match c.below, c.above with
  | p :: b, w :: a => Cursor.wrap ⟨c.i + 1, f p w :: p :: b, a⟩
  | _, _ => c

theorem Cursor.wrap_words_length (c : Cursor) : c.wrap.words.length = c.words.length := by
  rcases c with ⟨i, below, above⟩
  cases above <;> cases below <;> simp [Cursor.wrap, Cursor.words, Nat.add_comm]

theorem Cursor.update_words_length (c : Cursor) (f : Word → Word → Word) :
    (c.update f).words.length = c.words.length := by
  rcases c with ⟨i, _ | ⟨p, b⟩, _ | ⟨w, a⟩⟩
  · rfl
  · rfl
  · rfl
  · exact (Cursor.wrap_words_length _).trans (by simp [Cursor.words])

/-- The value the first loop writes to S[i]: (S[i] XOR (fold S[i-1] * ARR_MULT1)) + keys[j] + j (R82, R86). -/
def keyMix (key : Word) (j : Nat) (prev w : Word) : Word :=
  (w ^^^ (fold62 prev * arrMult1)) + key + BitVec.ofNat 64 j

/-- The value the second loop writes to S[i]: (S[i] XOR (fold S[i-1] * ARR_MULT2)) - i (R82). -/
def closeMix (i : Nat) (prev w : Word) : Word :=
  (w ^^^ (fold62 prev * arrMult2)) - BitVec.ofNat 64 i

/-- `n` steps of the first loop with key cursor j (R82). For a non-empty key sequence j stays below its length. -/
def keyLoop (keys : List Word) : Nat → Nat → Cursor → Cursor
  | 0, _, c => c
  | n + 1, j, c =>
    keyLoop keys n (if j + 1 = keys.length then 0 else j + 1) (c.update (keyMix (keys.getD j 0#64) j))

/-- `n` steps of the second loop (R82). -/
def closeLoop : Nat → Cursor → Cursor
  | 0, c => c
  | n + 1, c => closeLoop n (c.update (closeMix c.i))

theorem keyLoop_words_length (keys : List Word) :
    ∀ n j c, (keyLoop keys n j c).words.length = c.words.length
  | 0, _, _ => rfl
  | n + 1, j, c => by simp [keyLoop, keyLoop_words_length keys n, Cursor.update_words_length]

theorem closeLoop_words_length : ∀ n c, (closeLoop n c).words.length = c.words.length
  | 0, _ => rfl
  | n + 1, c => by simp [closeLoop, closeLoop_words_length n, Cursor.update_words_length]

/-- The cursor at i = 1 on the array ScalarSeed(BOOT_SEED) leaves (R82). -/
def bootCursor : Cursor := ⟨1, [bootSeed], scalarTail 311 1 bootSeed⟩

/-- The cursor after both loops: max(312, L) key steps, then 311 closing steps (R82). -/
def arrayCursor (keys : List Word) : Cursor :=
  closeLoop 311 (keyLoop keys (max 312 keys.length) 0 bootCursor)

theorem arrayCursor_words_length (keys : List Word) : (arrayCursor keys).words.length = 312 := by
  rw [arrayCursor, closeLoop_words_length, keyLoop_words_length]
  simp [bootCursor, Cursor.words, scalarTail_length]

/-- The state vector ArraySeed(keys) leaves: the last write is S[0] <- ARR_FINAL (R82). -/
def arrayWords (keys : List Word) : StateArray :=
  ⟨⟨arrFinal :: (arrayCursor keys).words.tail⟩, by
    rw [List.size_toArray, List.length_cons, List.length_tail, arrayCursor_words_length]⟩

/-- ArraySeed(keys) (R82): seeded and index are written by its ScalarSeed (R83). -/
def arraySeed (keys : List Word) (s : State) : State :=
  { scalarSeed bootSeed s with S := arrayWords keys }

/-! ### Twist (41_twist.md R100 to R102)

The closed form of R102, in the two phases that 70_reset_and_hazards.md R183 gives as correct. The in-place loop of
R100 is `Machine.inPlaceTwist` (Pseudocode.lean). -/

/-- Mix(u, l) (R100, R101). -/
def mix (u l : Word) : Word :=
  let x := (u &&& upperMask) ||| (l &&& lowerMask)
  (x >>> 1) ^^^ (if x &&& 1#64 = 1#64 then matrixA else 0#64)

/-- Mix(old[i], old[i+1]) for i = 0..310. -/
def twistMixes (S : StateArray) : List Word := List.zipWith mix S.toList S.toList.tail

/-- new[0..155]: new[i] = old[i+156] XOR Mix(old[i], old[i+1]) (R102). -/
def twistLow (S : StateArray) : List Word :=
  List.zipWith (fun o m => o ^^^ m) (S.toList.drop 156) (twistMixes S)

/-- new[156..310]: new[i] = new[i-156] XOR Mix(old[i], old[i+1]) (R102). -/
def twistHigh (S : StateArray) : List Word :=
  List.zipWith (fun n m => n ^^^ m) (twistLow S) ((twistMixes S).drop 156)

theorem twistMixes_length (S : StateArray) : (twistMixes S).length = 311 := by simp [twistMixes]

theorem twistLow_length (S : StateArray) : (twistLow S).length = 156 := by simp [twistLow, twistMixes_length]

theorem twistHigh_length (S : StateArray) : (twistHigh S).length = 155 := by
  simp [twistHigh, twistMixes_length, twistLow_length]

/-- new[311] = new[155] XOR Mix(old[311], new[0]) (R102). -/
def twistTop (S : StateArray) : Word :=
  (twistLow S)[155]'(by simp [twistLow_length]) ^^^ mix S[311] ((twistLow S)[0]'(by simp [twistLow_length]))

/-- The state vector after Twist() (R102). -/
def twistWords (S : StateArray) : StateArray :=
  ⟨⟨twistLow S ++ (twistHigh S ++ [twistTop S])⟩, by simp [twistLow_length, twistHigh_length]⟩

/-- Twist() (R100): S only, and the ghost counter rises by 1 (R32). -/
def twist (s : State) : State :=
  { s with S := twistWords s.S, twists := s.twists + 1 }

/-! ### Draw (42_output.md R120, R121) -/

/-- Temper(y) (R121). -/
def temper (y0 : Word) : Word :=
  let y1 := y0 ^^^ ((y0 >>> 29) &&& temperB1)
  let y2 := y1 ^^^ ((y1 <<< 17) &&& temperB2)
  let y3 := y2 ^^^ ((y2 <<< 37) &&& temperB3)
  y3 ^^^ (y3 >>> 43)

/-- Draw step 1: a never-seeded engine seeds itself with DEFAULT_SEED (R120). -/
def ensureSeeded (s : State) : State := if s.seeded then s else scalarSeed defaultSeed s

/-- Draw step 2: an exhausted cursor, 0 or at least 312, twists and restarts at 0 (R120). -/
def refill (s : State) : State :=
  if s.index = 0#9 ∨ 312 ≤ s.index.toNat then { twist s with index := 0#9 } else s

theorem refill_index_lt (s : State) : (refill s).index.toNat < 312 := by
  unfold refill
  split
  · simp
  · omega

/-- Draw steps 3 and 5: the word at the cursor, tempered (R120). -/
def currentWord (s : State) (h : s.index.toNat < 312) : Word := temper (s.S[s.index.toNat])

/-- Draw step 4: the cursor advances by 1 (R120). -/
def advance (s : State) : State := { s with index := s.index + 1#9 }

/-- The state a draw reads its word from: seeded, and the cursor inside the generation (R120 steps 1 and 2). -/
def drawReady (s : State) : State := refill (ensureSeeded s)

/-- The word Draw() returns (R120). -/
def drawWord (s : State) : Word := currentWord (drawReady s) (refill_index_lt _)

/-- The state Draw() leaves (R120). -/
def drawState (s : State) : State := advance (drawReady s)

/-! ### The result output, faults and reset -/

/-- emit(v): the result word goes to the host, after every earlier one (R13, R66). -/
def emit (v : Word) (s : State) : State := { s with results := s.results ++ [v] }

/-- One draw whose word, converted, is the command's result word (R129). -/
def drawAndEmit (convert : Word → Word) (s : State) : State := emit (convert (drawWord s)) (drawState s)

/-- The three fault causes (60_exceptions.md R151). -/
inductive FaultCause where
  | illegalCommand
  | emptyKeys
  | keyOverflow
  deriving DecidableEq, Repr

/-- The code of each cause (R151). -/
def causeCode : FaultCause → BitVec 4
  | .illegalCommand => 1#4
  | .emptyKeys => 2#4
  | .keyOverflow => 3#4

/-- raise Fault(c) (R156): FAULT and CAUSE are written and nothing else. -/
def raiseFault (c : FaultCause) (s : State) : State := { s with fault := true, cause := causeCode c }

/-- Reset() (70_reset_and_hazards.md R180), with the host's later sends `rest` still to come. Result words already
emitted stay emitted, and the configuration is fixed. -/
def applyReset (rest : List HostInput) (s : State) : State where
  S := unspecifiedArray (s.epoch + 1)
  index := Config.resetIndex (s.epoch + 1)
  seeded := false
  fault := false
  cause := 0#4
  twists := 0
  input := rest
  results := s.results
  epoch := s.epoch + 1
  config := s.config

/-- The state once the engine has taken its words off the command input, with `rest` still to come (R60). -/
def takeInput (rest : List HostInput) (s : State) : State := { s with input := rest }

/-- The engine carries a command out only while it is not faulted; a faulted engine discards it and changes nothing
(R67, R157). -/
def serve (action : State → State) (s : State) : Host.Outcome State Fault Refusal :=
  if s.fault then .next s else .next (action s)

end Sys2Proof.Machine
end

