-- ==== Sys2Proof/Machine/Output.lean ====
section
/-! DEFINITION. The five output commands: one draw, then a pure conversion of the drawn word (42_output.md R122 to R129). -/

namespace Sys2Proof.Machine

/-- NEXT_U64 (R122). -/
def execNextU64 (s : State) : Host.Outcome State Fault Refusal := serve (drawAndEmit convertU64) s

/-- NEXT_I63 (R123). -/
def execNextI63 (s : State) : Host.Outcome State Fault Refusal := serve (drawAndEmit convertI63) s

/-- NEXT_F64A (R125). -/
def execNextF64A (s : State) : Host.Outcome State Fault Refusal := serve (drawAndEmit convertF64A) s

/-- NEXT_F64B (R126). -/
def execNextF64B (s : State) : Host.Outcome State Fault Refusal := serve (drawAndEmit convertF64B) s

/-- NEXT_F64C (R127). -/
def execNextF64C (s : State) : Host.Outcome State Fault Refusal := serve (drawAndEmit convertF64C) s

end Sys2Proof.Machine
end

