-- ==== Sys2Proof/Machine/Seeding.lean ====
section
/-! DEFINITION. The seeding commands SEED and SEED_ARRAY (40_seeding.md R81, R83). -/

namespace Sys2Proof.Machine

/-- SEED (R81): ScalarSeed(v); no result word. -/
def execSeed (v : Word) (s : State) : Host.Outcome State Fault Refusal :=
  serve (scalarSeed v) s

/-- SEED_ARRAY (R83): the key count is checked before any state is written (R155, R158), then ArraySeed(keys). -/
def execSeedArray (keys : List Word) (s : State) : Host.Outcome State Fault Refusal :=
  serve (fun s =>
    match checkKeys s.config keys with
    | .empty => raiseFault .emptyKeys s
    | .overflow => raiseFault .keyOverflow s
    | .accepted => arraySeed keys s) s

end Sys2Proof.Machine
end

