-- ==== Sys2Proof/Machine/Dispatch.lean ====
section
/-! DEFINITION. One arm per command (30_encoding.md R67): each calls its own meaning. -/

namespace Sys2Proof.Machine

def exec (i : Instr) (s : State) : Host.Outcome State Fault Refusal :=
  match i with
  | .seed v => Sys2Proof.Machine.execSeed v s
  | .seedArray keys => Sys2Proof.Machine.execSeedArray keys s
  | .nextU64 => Sys2Proof.Machine.execNextU64 s
  | .nextI63 => Sys2Proof.Machine.execNextI63 s
  | .nextF64A => Sys2Proof.Machine.execNextF64A s
  | .nextF64B => Sys2Proof.Machine.execNextF64B s
  | .nextF64C => Sys2Proof.Machine.execNextF64C s

end Sys2Proof.Machine
end

