-- ==== Sys2Proof/Decode.lean ====
section
/-! DEFINITION. The decoder of the command stream and the encoder beside it (30_encoding.md R60 to R67, R70). -/

namespace Sys2Proof

/-- Why the front of the command stream is not a whole command. -/
inductive Reject where
  /-- No word has arrived. -/
  | noCommand
  /-- OP is not assigned: Fault(ILLEGAL_COMMAND) (R65, R152). -/
  | illegalOpcode (op : BitVec 8)
  /-- OP is legal and not 0x02, and LEN != 0: Fault(ILLEGAL_COMMAND) (R65, R152). -/
  | lenNotZero (op : BitVec 8) (len : BitVec 24)
  /-- Some operand words have not arrived yet: the command is not taken (R60). -/
  | incomplete
  /-- The reset signal comes before the command's last word (R181). -/
  | resetAhead
  /-- A command word stands where an operand word is due: the host breaks its duty (R163, U3). -/
  | commandInsideOperands
  /-- An operand word stands where a command word is due: the host breaks its duty (R163, U3). -/
  | operandWithoutCommand
  deriving DecidableEq, Repr

/-- The OP field, bits 7..0 (R61). -/
def opField (cw : CommandWord) : BitVec 8 := cw.extractLsb' 0 8

/-- The LEN field, bits 31..8 (R61). -/
def lenField (cw : CommandWord) : BitVec 24 := cw.extractLsb' 8 24

/-- The command word with the given fields (R61). -/
def commandWord (len : BitVec 24) (op : BitVec 8) : CommandWord := len ++ op

/-- Is OP one of the six opcodes whose LEN must be 0 (R64)? -/
def isFixedOpcode (op : BitVec 8) : Bool :=
  op == 0x01#8 || op == 0x10#8 || op == 0x11#8 || op == 0x12#8 || op == 0x13#8 || op == 0x14#8

/-- How many operand words a command word declares, from OP and LEN alone (R62). -/
def operandCount (cw : CommandWord) : Nat :=
  if opField cw = 0x02#8 then (lenField cw).toNat
  else if opField cw = 0x01#8 then 1
  else 0

/-- Take the next `n` operand words off the command input. -/
def takeOperands : Nat → List HostInput → Except Reject (List Word × List HostInput)
  | 0, inp => .ok ([], inp)
  | _ + 1, [] => .error .incomplete
  | _ + 1, .reset :: _ => .error .resetAhead
  | _ + 1, .command _ :: _ => .error .commandInsideOperands
  | n + 1, .operand w :: inp =>
    match takeOperands n inp with
    | .ok (ws, rest) => .ok (w :: ws, rest)
    | .error e => .error e

/-- The command with opcode `op` and operand words `ops` (R63, R64). -/
def assemble (op : BitVec 8) (ops : List Word) : Except Reject Instr :=
  if op = 0x02#8 then .ok (.seedArray ops)
  else if op = 0x01#8 then
    match ops with
    | [v] => .ok (.seed v)
    | _ => .error .incomplete
  else if op = 0x10#8 then .ok .nextU64
  else if op = 0x11#8 then .ok .nextI63
  else if op = 0x12#8 then .ok .nextF64A
  else if op = 0x13#8 then .ok .nextF64B
  else if op = 0x14#8 then .ok .nextF64C
  else .error (.illegalOpcode op)

/-- The checks a command word passes before its operands are looked at (R65, R67; order R155). -/
def checkCommand (cw : CommandWord) : Except Reject Unit :=
  if opField cw = 0x02#8 then .ok ()
  else if isFixedOpcode (opField cw) then
    if lenField cw = 0#24 then .ok () else .error (.lenNotZero (opField cw) (lenField cw))
  else .error (.illegalOpcode (opField cw))

/-- A command word that passed its checks, with the operand words it declares taken off the input after it (R62). -/
def decodeChecked (cw : CommandWord) (inp : List HostInput) : Except Reject (Instr × List HostInput) :=
  match takeOperands (operandCount cw) inp with
  | .error e => .error e
  | .ok (ops, rest) =>
    match assemble (opField cw) ops with
    | .ok i => .ok (i, rest)
    | .error e => .error e

/-- Decode one whole command off the front of the command input; the rest of the input comes with it. -/
def decode : List HostInput → Except Reject (Instr × List HostInput)
  | [] => .error .noCommand
  | .reset :: _ => .error .resetAhead
  | .operand _ :: _ => .error .operandWithoutCommand
  | .command cw :: inp =>
    match checkCommand cw with
    | .error e => .error e
    | .ok () => decodeChecked cw inp

/-- The opcode of each command (R64). -/
def opcode : Instr → BitVec 8
  | .seed _ => 0x01#8
  | .seedArray _ => 0x02#8
  | .nextU64 => 0x10#8
  | .nextI63 => 0x11#8
  | .nextF64A => 0x12#8
  | .nextF64B => 0x13#8
  | .nextF64C => 0x14#8

/-- The operand words of each command, in transfer order (R62, R63). -/
def operands : Instr → List Word
  | .seed v => [v]
  | .seedArray keys => keys
  | .nextU64 | .nextI63 | .nextF64A | .nextF64B | .nextF64C => []

/-- The LEN field of each command: the key count for SEED_ARRAY, 0 for every other (R61). -/
def encodedLen : Instr → BitVec 24
  | .seedArray keys => BitVec.ofNat 24 keys.length
  | .seed _ | .nextU64 | .nextI63 | .nextF64A | .nextF64B | .nextF64C => 0#24

/-- The words of a well-formed command, in transfer order (R60, R70). -/
def encode (i : Instr) : List HostInput :=
  .command (commandWord (encodedLen i) (opcode i)) :: (operands i).map .operand

/-- `n` operand words read off a number, the least significant 64 bits first. -/
def operandWordsOf : Nat → Nat → List HostInput
  | 0, _ => []
  | n + 1, v => .operand (BitVec.ofNat 64 v) :: operandWordsOf n (v >>> 64)

/-- The words of the instruction whose first `nbits` bits are `w`, bit 0 the least significant bit of the command word
and later words above it; every bit from `nbits` up is 0. Whole words cross the interface, so no byte order enters (R43). -/
def tableWords (nbits w : Nat) : List HostInput :=
  let v := w % 2 ^ nbits
  let cw : CommandWord := BitVec.ofNat 32 v
  .command cw :: operandWordsOf (operandCount cw) (v >>> 32)

/-- The instruction the decoder reads from a row of spec/opcode_table.json. -/
def decodeTableWord (nbits w : Nat) : Option Instr :=
  match decode (tableWords nbits w) with
  | .ok (i, _) => some i
  | .error _ => none

end Sys2Proof
end

