-- ==== Sys2Proof/Machine/Fetch.lean ====
section
/-! DEFINITION. Taking the next command off the host's input (30_encoding.md R60, R67; 60_exceptions.md R157;
70_reset_and_hazards.md R180, R181). -/

namespace Sys2Proof.Machine

/-- What the front of the input calls for. -/
inductive Fetched where
  /-- Run this command on this state, its words taken off the input. -/
  | run (i : Instr) (s : State)
  /-- The step is done with no command run. -/
  | done (s : State)
  /-- The host broke its duty: no move. -/
  | stop (r : Refusal)
  deriving DecidableEq, Repr

/-- The host's sends after its first reset request (R181: what came before is discarded). -/
def afterReset : List HostInput → List HostInput
  | [] => []
  | .reset :: rest => rest
  | .command _ :: rest => afterReset rest
  | .operand _ :: rest => afterReset rest

/-- A word that a faulted engine discards, or a reset (R157, R159). -/
def fetchFaulted (s : State) : Fetched :=
  match s.input with
  | [] => .done s
  | .reset :: rest => .done (applyReset rest s)
  | .command _ :: rest => .done (takeInput rest s)
  | .operand _ :: rest => .done (takeInput rest s)

/-- The next command of an engine in service: it is taken once all its operand words are present (R60). An illegal
command word faults, and only that word is taken (R152, R156). With no whole command the engine waits, its state
unchanged (R168, R180); a reset discards a partly received command (R181). -/
def fetchReady (s : State) : Fetched :=
  match decode s.input with
  | .ok (i, rest) => .run i (takeInput rest s)
  | .error (.illegalOpcode _) => .done (raiseFault .illegalCommand (takeInput s.input.tail s))
  | .error (.lenNotZero _ _) => .done (raiseFault .illegalCommand (takeInput s.input.tail s))
  | .error .noCommand => .done s
  | .error .incomplete => .done s
  | .error .resetAhead => .done (applyReset (afterReset s.input) s)
  | .error .commandInsideOperands => .stop .commandInsideOperands
  | .error .operandWithoutCommand => .stop .operandWithoutCommand

/-- The engine's next move: priority as in R155, a faulted engine first. -/
def fetch (s : State) : Fetched := if s.fault then fetchFaulted s else fetchReady s

/-- The host sends `words` so that they are the next thing the engine takes. -/
def sendNext (words : List HostInput) (s : State) : State := { s with input := words ++ s.input }

end Sys2Proof.Machine
end

