-- ==== Sys2Proof/Machine/Step.lean ====
section
/-! DEFINITION. One step of the engine, and placing an instruction where the next step takes it. -/

namespace Sys2Proof.Machine

/-- One step: the next command off the input runs whole, or the engine resets, discards, faults or waits
(10_state.md R33, 20_memory.md R45, 30_encoding.md R67). -/
def step (s : State) : Host.Outcome State Fault Refusal :=
  match fetch s with
  | .run i t => exec i t
  | .done t => .next t
  | .stop r => .refused r

/-- The host sends the words of a row of the opcode table, ahead of anything still unread (log entry 6). -/
def State.withFetchWord (s : State) (nbits w : Nat) : State := sendNext (tableWords nbits w) s

end Sys2Proof.Machine
end

