-- ==== Sys2Proof/WellFormed.lean ====
section
/-! DEFINITION. When an instruction has an encoding: its key count fits the LEN field (30_encoding.md R61). -/

namespace Sys2Proof

/-- The LEN field is 24 bits wide, so a command carries at most 16777215 keys (R61, R9).
An empty key sequence is well formed: its word is "legal to decode" (R65). -/
abbrev Instr.WellFormed (i : Instr) : Prop :=
  match i with
  | .seedArray keys => keys.length ≤ 16777215
  | .seed _ | .nextU64 | .nextI63 | .nextF64A | .nextF64B | .nextF64C => True

end Sys2Proof
end

