-- ==== Sys2Proof/Machine/Assembler.lean ====
section
/-! DEFINITION. The command-stream assembly text and its binary image (30_encoding.md R68, R69, R70). The engine never sees
text: these functions say which command words and operand words a line of text stands for. -/

namespace Sys2Proof.Machine

/-- One assembly command: an opcode's mnemonic with its literals, or the pseudo-instruction SEED_DEFAULT (R68, R69). -/
inductive AsmCommand where
  | seed (value : Int)
  | seedArray (values : List Int)
  | nextU64
  | nextI63
  | nextF64A
  | nextF64B
  | nextF64C
  | seedDefault
  deriving DecidableEq, Repr

/-- One line: `count` consecutive copies of a command, 1 where no REPEAT stands (R69). -/
structure AsmLine where
  count : Nat
  command : AsmCommand
  deriving DecidableEq, Repr

/-! ### From commands to words -/

/-- A SEED operand lies in -2^63 .. 2^64-1; a negative one assembles to as_u64 (R63, R68). -/
def seedOperand (n : Int) : Option Word :=
  if -(2 ^ 63) ≤ n ∧ n < 2 ^ 64 then some (BitVec.ofInt 64 n) else none

/-- A SEED_ARRAY operand lies in 0 .. 2^64-1 (R68). -/
def keyOperand (n : Int) : Option Word :=
  if 0 ≤ n ∧ n < 2 ^ 64 then some (BitVec.ofInt 64 n) else none

/-- The key operands of a SEED_ARRAY; one literal out of range rejects the command. -/
def keyOperands : List Int → Option (List Word)
  | [] => some []
  | n :: ns =>
    match keyOperand n, keyOperands ns with
    | some w, some ws => some (w :: ws)
    | _, _ => none

/-- The command a line's text stands for. A SEED_ARRAY with no operand is rejected (R68), and so is one whose count does
not fit LEN (R61); a count above KEY_MAX assembles, as in program P8 (log entry 8). -/
def assembleCommand : AsmCommand → Option Instr
  | .seed value =>
    match seedOperand value with
    | some v => some (.seed v)
    | none => none
  | .seedArray values =>
    match keyOperands values with
    | some keys => if 1 ≤ keys.length ∧ keys.length ≤ 16777215 then some (.seedArray keys) else none
    | none => none
  | .nextU64 => some .nextU64
  | .nextI63 => some .nextI63
  | .nextF64A => some .nextF64A
  | .nextF64B => some .nextF64B
  | .nextF64C => some .nextF64C
  | .seedDefault => some (.seed 5489#64)

/-- A line stands for its command `count` times over, count at least 1 (R69). -/
def assembleLine (l : AsmLine) : Option (List Instr) :=
  if l.count = 0 then none
  else
    match assembleCommand l.command with
    | some i => some (List.replicate l.count i)
    | none => none

/-- A program's commands, line after line. -/
def assembleLines : List AsmLine → Option (List Instr)
  | [] => some []
  | l :: ls =>
    match assembleLine l, assembleLines ls with
    | some is, some js => some (is ++ js)
    | _, _ => none

/-- The words of a command stream, in transfer order (R70). -/
def streamOf (cmds : List Instr) : List HostInput := (cmds.map encode).flatten

/-! ### The binary image (R70) -/

/-- One upper-case hexadecimal digit. -/
def hexDigit (d : Nat) : Char := if d < 10 then Char.ofNat (48 + d) else Char.ofNat (55 + d)

/-- The low `k` hexadecimal digits of a number, most significant first. -/
def hexDigits : Nat → Nat → List Char
  | 0, _ => []
  | k + 1, n => hexDigits k (n / 16) ++ [hexDigit (n % 16)]

/-- A command word is written as 8 hex digits and an operand word as 16; a reset is no word of the image (R70). -/
def imageWord : HostInput → List Char
  | .command w => hexDigits 8 w.toNat
  | .operand w => hexDigits 16 w.toNat
  | .reset => []

/-! ### From text to lines -/

/-- White space inside a line: a blank or a tab (log entry 8). -/
def isBlank (c : Char) : Bool := c == ' ' || c == '\t'

/-- A text without the blanks at its two ends. -/
def trim (cs : List Char) : List Char := ((cs.dropWhile isBlank).reverse.dropWhile isBlank).reverse

/-- The pieces of a text between separators. -/
def pieces (sep : Char) : List Char → List (List Char)
  | [] => [[]]
  | c :: cs =>
    if c = sep then [] :: pieces sep cs
    else
      match pieces sep cs with
      | [] => [[c]]
      | p :: ps => (c :: p) :: ps

/-- The value of a digit in the given base, 10 or 16. -/
def digitValue (base : Nat) (c : Char) : Option Nat :=
  let n := c.toNat
  let v := if 48 ≤ n ∧ n ≤ 57 then n - 48
    else if 65 ≤ n ∧ n ≤ 70 then n - 55
    else if 97 ≤ n ∧ n ≤ 102 then n - 87
    else base
  if v < base then some v else none

/-- Digits read onto the number `acc` already read. -/
def readDigits (base : Nat) : Nat → List Char → Option Nat
  | acc, [] => some acc
  | acc, c :: cs =>
    match digitValue base c with
    | some d => readDigits base (acc * base + d) cs
    | none => none

/-- A number of at least one digit. -/
def readNat (base : Nat) (cs : List Char) : Option Nat := if cs = [] then none else readDigits base 0 cs

/-- `<int>`: a decimal literal, which may have a leading `-`, or a hex literal `0x...` (R68). -/
def readInt (cs : List Char) : Option Int :=
  match cs with
  | '-' :: ds => (readNat 10 ds).map fun n => -(Int.ofNat n)
  | '0' :: 'x' :: hs => (readNat 16 hs).map Int.ofNat
  | ds => (readNat 10 ds).map Int.ofNat

/-- The literals of an operand list, separated by commas. -/
def readInts : List (List Char) → Option (List Int)
  | [] => some []
  | p :: ps =>
    match readInt (trim p), readInts ps with
    | some n, some ns => some (n :: ns)
    | _, _ => none

/-- One command: an upper-case mnemonic and its literals (R68). -/
def readCommand (cs : List Char) : Option AsmCommand :=
  let mnemonic := cs.takeWhile fun c => !isBlank c
  let tail := trim (cs.dropWhile fun c => !isBlank c)
  if mnemonic = "SEED".toList then (readInt tail).map .seed
  else if mnemonic = "SEED_ARRAY".toList then (readInts (pieces ',' tail)).map .seedArray
  else if tail ≠ [] then none
  else if mnemonic = "NEXT_U64".toList then some .nextU64
  else if mnemonic = "NEXT_I63".toList then some .nextI63
  else if mnemonic = "NEXT_F64A".toList then some .nextF64A
  else if mnemonic = "NEXT_F64B".toList then some .nextF64B
  else if mnemonic = "NEXT_F64C".toList then some .nextF64C
  else if mnemonic = "SEED_DEFAULT".toList then some .seedDefault
  else none

/-- One command, or `REPEAT <n>: <command>` with n >= 1 a decimal literal (R69). -/
def readLine (cs : List Char) : Option AsmLine :=
  if cs.takeWhile (fun c => !isBlank c) = "REPEAT".toList then
    let tail := cs.dropWhile fun c => !isBlank c
    match readNat 10 (trim (tail.takeWhile fun c => c != ':')), tail.dropWhile (fun c => c != ':') with
    | some n, ':' :: command => if n = 0 then none else (readCommand (trim command)).map fun c => ⟨n, c⟩
    | _, _ => none
  else (readCommand cs).map fun c => ⟨1, c⟩

/-- The lines of a text: a comment runs from `;` to the line's end, and a line with nothing else on it is skipped (R68). -/
def readLines : List (List Char) → Option (List AsmLine)
  | [] => some []
  | l :: ls =>
    let text := trim (l.takeWhile fun c => c != ';')
    if text = [] then readLines ls
    else
      match readLine text, readLines ls with
      | some a, some as => some (a :: as)
      | _, _ => none

/-- The commands an assembly text stands for (R68, R69). -/
def assembleText (text : List Char) : Option (List Instr) :=
  match readLines (pieces '\n' text) with
  | some ls => assembleLines ls
  | none => none

end Sys2Proof.Machine
end

