-- ==== Sys2Proof/Machine/Flags.lean ====
section
/-! DEFINITION. The status register STATUS (10_state.md R26, R33). The engine has no condition flags (R28). -/

namespace Sys2Proof.Machine

/-- One flag as a bit of the 32-bit STATUS word. -/
def flagBit (b : Bool) : BitVec 32 := if b then 1#32 else 0#32

/-- STATUS = zext_32(CAUSE << 4 OR FAULT << 1 OR seeded) (R33): the status output, read at any time with no effect (R26). -/
def status (s : State) : BitVec 32 :=
  (s.cause.setWidth 32 <<< 4) ||| (flagBit s.fault <<< 1) ||| flagBit s.seeded

end Sys2Proof.Machine
end

