-- ==== Sys2Proof/Machine/Pseudocode.lean ====
section
/-! DEFINITION. The spec's own procedures, transcribed: the in-place loops of 40_seeding.md R80, R82 and 41_twist.md R100,
Draw of 42_output.md R120, the integer procedures of R125 to R127, and Execute of 30_encoding.md R67. `exec` and `step`
do not call them; the statements hold the model against them. -/

namespace Sys2Proof.Machine

/-! ### The state array as the loops read and write it (00_scope.md R13) -/

/-- S[i]; the loops use it for i <= 311 only (20_memory.md R42). -/
def readWord (S : StateArray) (i : Nat) : Word := S.toList.getD i 0#64

/-- S[i] <- w; the loops use it for i <= 311 only (R42). -/
def writeWord (S : StateArray) (i : Nat) (w : Word) : StateArray := S.setIfInBounds i w

/-! ### ScalarSeed (R80) -/

/-- `n` steps of "for i in 1..311" from i (R80). -/
def inPlaceScalarLoop : Nat → Nat → StateArray → StateArray
  | 0, _, S => S
  | n + 1, i, S =>
    inPlaceScalarLoop n (i + 1)
      (writeWord S i
        (6364136223846793005#64 * (readWord S (i - 1) ^^^ (readWord S (i - 1) >>> 62)) + BitVec.ofNat 64 i))

/-- S after ScalarSeed(v) run on S (R80). -/
def inPlaceScalarSeed (v : Word) (S : StateArray) : StateArray := inPlaceScalarLoop 311 1 (writeWord S 0 v)

/-! ### ArraySeed (R82) -/

/-- "if i = 312: S[0] <- S[311]; i <- 1" (R82). -/
def wrapCopy (S : StateArray) (i : Nat) : StateArray × Nat :=
  if i = 312 then (writeWord S 0 (readWord S 311), 1) else (S, i)

/-- `n` steps of the first loop from cursors i and j; S and i afterwards (R82). -/
def inPlaceKeyLoop (keys : List Word) : Nat → Nat → Nat → StateArray → StateArray × Nat
  | 0, i, _, S => (S, i)
  | n + 1, i, j, S =>
    let S1 := writeWord S i
      ((readWord S i ^^^ ((readWord S (i - 1) ^^^ (readWord S (i - 1) >>> 62)) * 3935559000370003845#64))
        + keys.getD j 0#64 + BitVec.ofNat 64 j)
    let next := wrapCopy S1 (i + 1)
    inPlaceKeyLoop keys n next.2 (if j + 1 = keys.length then 0 else j + 1) next.1

/-- `n` steps of the second loop from cursor i; S and i afterwards (R82). -/
def inPlaceCloseLoop : Nat → Nat → StateArray → StateArray × Nat
  | 0, i, S => (S, i)
  | n + 1, i, S =>
    let S1 := writeWord S i
      ((readWord S i ^^^ ((readWord S (i - 1) ^^^ (readWord S (i - 1) >>> 62)) * 2862933555777941757#64))
        - BitVec.ofNat 64 i)
    let next := wrapCopy S1 (i + 1)
    inPlaceCloseLoop n next.2 next.1

/-- S after ArraySeed(keys) run on S (R82). -/
def inPlaceArraySeed (keys : List Word) (S : StateArray) : StateArray :=
  let first := inPlaceKeyLoop keys (max 312 keys.length) 1 0 (inPlaceScalarSeed 19650218#64 S)
  writeWord (inPlaceCloseLoop 311 first.2 first.1).1 0 0x8000000000000000#64

/-! ### Twist (R100) -/

/-- `n` steps of "for i in 0..310" from i (R100). -/
def inPlaceTwistLoop : Nat → Nat → StateArray → StateArray
  | 0, _, S => S
  | n + 1, i, S =>
    let next := if i < 156 then i + 156 else i + 156 - 312
    inPlaceTwistLoop n (i + 1)
      (writeWord S i (readWord S next ^^^ mix (readWord S i) (readWord S (i + 1))))

/-- S after Twist() run on S (R100). -/
def inPlaceTwist (S : StateArray) : StateArray :=
  let S1 := inPlaceTwistLoop 311 0 S
  writeWord S1 311 (readWord S1 155 ^^^ mix (readWord S1 311) (readWord S1 0))

/-! ### Draw (R120) -/

/-- Steps 1 and 2 of Draw (R120), with the in-place loops. -/
def pseudoReady (s : State) : State :=
  let s1 := if s.seeded = false then
      { s with S := inPlaceScalarSeed 5489#64 s.S, seeded := true, index := 0#9 } else s
  if s1.index.toNat = 0 ∨ s1.index.toNat ≥ 312 then
    { s1 with S := inPlaceTwist s1.S, twists := s1.twists + 1, index := 0#9 } else s1

/-- Draw(): the word it returns and the state it leaves (R120). -/
def pseudoDraw (s : State) : Word × State :=
  let s2 := pseudoReady s
  let y := readWord s2.S s2.index.toNat
  (temper y, { s2 with index := s2.index + 1#9 })

/-! ### The float conversions' integer procedures (R125 to R127) -/

/-- The integer procedure of NEXT_F64A on k = x >> 11 (R125). -/
def procedureA (k : Nat) : Word :=
  if k = 0 then 0x0000000000000000#64
  else
    let P := k * (2 ^ 52 + 1)
    let sh := P.log2 - 52
    let q := P >>> sh
    let r := P % 2 ^ sh
    let q1 := if sh > 0 ∧ (r > 2 ^ (sh - 1) ∨ (r = 2 ^ (sh - 1) ∧ q % 2 = 1)) then q + 1 else q
    let q2 := if q1 = 2 ^ 53 then 2 ^ 52 else q1
    let sh2 := if q1 = 2 ^ 53 then sh + 1 else sh
    BitVec.ofNat 64 (((sh2 + 970) <<< 52) ||| (q2 - 2 ^ 52))

/-- ((e + 970) << 52) OR ((m << (52 - e)) - 2^52) with e = floor(log2(m)): the value m * 2^-53 (R126, R127). -/
def exactPattern (m : Nat) : Word :=
  BitVec.ofNat 64 (((m.log2 + 970) <<< 52) ||| ((m <<< (52 - m.log2)) - 2 ^ 52))

/-- The integer procedure of NEXT_F64B on k = x >> 11 (R126). -/
def procedureB (k : Nat) : Word := if k = 0 then 0x0000000000000000#64 else exactPattern k

/-- The integer procedure of NEXT_F64C on k = x >> 12 (R127). -/
def procedureC (k : Nat) : Word := exactPattern (2 * k + 1)

/-- What each NEXT_* command makes of its drawn word x (R66, R122, R123, R125 to R127); `none` for a seeding. -/
def resultConversion : Instr → Option (Word → Word)
  | .nextU64 => some fun x => x
  | .nextI63 => some fun x => x >>> 1
  | .nextF64A => some fun x => procedureA (x >>> 11).toNat
  | .nextF64B => some fun x => procedureB (x >>> 11).toNat
  | .nextF64C => some fun x => procedureC (x >>> 12).toNat
  | .seed _ | .seedArray _ => none

/-! ### Execute (R67) -/

/-- OP <- cw[7:0] (R61, R67). -/
def pseudoOp (cw : CommandWord) : Nat := cw.toNat % 256

/-- LEN <- cw[31:8] (R61, R67). -/
def pseudoLen (cw : CommandWord) : Nat := cw.toNat / 256

/-- A command word that R65 makes illegal (R152). -/
abbrev IllegalWord (cw : CommandWord) : Prop :=
  (pseudoOp cw ∉ [0x01, 0x02, 0x10, 0x11, 0x12, 0x13, 0x14]) ∨ (pseudoOp cw ≠ 0x02 ∧ pseudoLen cw ≠ 0)

/-- The operand words a legal command word brings (R62). -/
def declaredOperands (cw : CommandWord) : Nat :=
  if pseudoOp cw = 0x02 then pseudoLen cw else if pseudoOp cw = 0x01 then 1 else 0

/-- emit(convert(Draw())) (R120, R122 to R127). -/
def pseudoEmit (convert : Word → Word) (s : State) : State :=
  { (pseudoDraw s).2 with results := (pseudoDraw s).2.results ++ [convert (pseudoDraw s).1] }

/-- raise Fault(c) (R156). -/
def pseudoFault (c : BitVec 4) (s : State) : State := { s with fault := true, cause := c }

/-- Execute(cw, ops) (R67). -/
def pseudoExecute (cw : CommandWord) (ops : List Word) (s : State) : State :=
  if s.fault = true then s
  else if pseudoOp cw = 0x02 then
    if pseudoLen cw = 0 then pseudoFault 2#4 s
    else if pseudoLen cw > s.config.keyMax then pseudoFault 3#4 s
    else { s with S := inPlaceArraySeed (ops.take (pseudoLen cw)) s.S, seeded := true, index := 0#9 }
  else if pseudoOp cw ∈ [0x01, 0x10, 0x11, 0x12, 0x13, 0x14] then
    if pseudoLen cw ≠ 0 then pseudoFault 1#4 s
    else if pseudoOp cw = 0x01 then
      { s with S := inPlaceScalarSeed (ops.getD 0 0#64) s.S, seeded := true, index := 0#9 }
    else if pseudoOp cw = 0x10 then pseudoEmit (fun x => x) s
    else if pseudoOp cw = 0x11 then pseudoEmit (fun x => x >>> 1) s
    else if pseudoOp cw = 0x12 then pseudoEmit (fun x => procedureA (x >>> 11).toNat) s
    else if pseudoOp cw = 0x13 then pseudoEmit (fun x => procedureB (x >>> 11).toNat) s
    else pseudoEmit (fun x => procedureC (x >>> 12).toNat) s
  else pseudoFault 1#4 s

end Sys2Proof.Machine
end

