-- ==== Sys2Proof/Safety.lean ====
section
/-! DEFINITION. What the statements call a good state, and a run of commands. -/

namespace Sys2Proof.Machine

/-- The engine's invariant: once seeded the cursor is in 0..312 (10_state.md R27); CAUSE is 0 exactly while FAULT = 0
and a code from 1 to 3 while FAULT = 1 (R26, 60_exceptions.md R151); KEY_MAX is in its range (00_scope.md R9). -/
abbrev State.Inv (s : State) : Prop :=
  (s.seeded = true → s.index.toNat ≤ 312) ∧ (s.fault = false ↔ s.cause = 0#4) ∧ s.cause.toNat ≤ 3 ∧ s.config.Valid

/-- The engine is in service: not faulted (R157). -/
abbrev State.InService (s : State) : Prop := s.fault = false

/-- The cursor is exhausted: 0 or at least 312 (R23, R120). -/
abbrev State.Exhausted (s : State) : Prop := s.index.toNat = 0 ∨ 312 ≤ s.index.toNat

/-- Commands run one after another, as a stream (20_memory.md R47). -/
def runCommands : List Instr → State → Host.Outcome State Fault Refusal
  | [], s => .next s
  | i :: is, s =>
    match exec i s with
    | .next t => runCommands is t
    | .fault r => .fault r
    | .refused r => .refused r

/-- Two state vectors with the same effective state: S[0] bits 63..31 and S[1..311] (41_twist.md R104). -/
abbrev SameEffective (A B : StateArray) : Prop :=
  A[0] >>> 31 = B[0] >>> 31 ∧ A.toList.tail = B.toList.tail

end Sys2Proof.Machine
end

