-- ==== Sys2Proof/Certificates/Slice0/Obligations.lean ====
section
/-! DEFINITION. The statements for the provers, from the spec's numbered rules. -/

open Sys2Proof Sys2Proof.Machine

/-! ### Decoding -/

/-- Encoding and decoding agree for every well-formed command, whatever follows it on the input: no bit of a command word
or operand word is lost (30_encoding.md sections 1 and 2). -/
def Obligations.DecodeOfEncode : Prop :=
  ∀ (i : Instr) (rest : List HostInput), i.WellFormed → decode (encode i ++ rest) = .ok (i, rest)

/-- Each stretch of words has one meaning: what the decoder reads as a command is that command's encoding, and the
command is well formed (30_encoding.md sections 1 and 2). -/
def Obligations.DecodedWordsAreTheEncoding : Prop :=
  ∀ (inp : List HostInput) (i : Instr) (rest : List HostInput),
    decode inp = .ok (i, rest) → i.WellFormed ∧ inp = encode i ++ rest

/-- The command words of the opcode map decode to the commands they stand for, and words just beside them do not decode
(30_encoding.md section 2, 95_test_vectors.md section 6). -/
def Obligations.OpcodeMapWords : Prop :=
  decodeTableWord 32 0x00000001 = some (.seed 0#64) ∧
  decodeTableWord 32 0x00000402 = some (.seedArray [0#64, 0#64, 0#64, 0#64]) ∧
  decodeTableWord 32 0x00000002 = some (.seedArray []) ∧
  decodeTableWord 32 0x00000010 = some .nextU64 ∧
  decodeTableWord 32 0x00000011 = some .nextI63 ∧
  decodeTableWord 32 0x00000012 = some .nextF64A ∧
  decodeTableWord 32 0x00000013 = some .nextF64B ∧
  decodeTableWord 32 0x00000014 = some .nextF64C ∧
  decodeTableWord 32 0x00000000 = none ∧
  decodeTableWord 32 0x00000015 = none ∧
  decodeTableWord 32 0x00000110 = none ∧
  decodeTableWord 32 0x80000014 = none

/-- An illegal command word never decodes, whatever follows it: an unassigned OP is rejected by its OP, a non-zero LEN
with another legal OP by its LEN (30_encoding.md section 2). -/
def Obligations.IllegalWordsAreRejectedByName : Prop :=
  ∀ (cw : CommandWord) (rest : List HostInput),
    (pseudoOp cw ∉ [0x01, 0x02, 0x10, 0x11, 0x12, 0x13, 0x14] →
      decode (.command cw :: rest) = .error (.illegalOpcode (opField cw))) ∧
    (pseudoOp cw ∈ [0x01, 0x10, 0x11, 0x12, 0x13, 0x14] → pseudoLen cw ≠ 0 →
      decode (.command cw :: rest) = .error (.lenNotZero (opField cw) (lenField cw)))

/-! ### One step -/

/-- When the words at the front of the input decode to a command, a step of an engine in service takes those words off the
input and is `exec` of that command; nothing else is added around it. -/
def Obligations.StepRunsDecodedCommand : Prop :=
  ∀ (s : State) (i : Instr) (rest : List HostInput),
    s.InService → decode s.input = .ok (i, rest) → step s = exec i { s with input := rest }

/-- A step on a command word and the operand words it declares does what Execute(cw, ops) does, for every command word
(30_encoding.md section 3). Which words the step takes is the model's reading: an illegal word faults at once and is taken
alone, an overlong SEED_ARRAY is taken with all its operand words (log entry 7, DEDUCED), and on a faulted engine, where
Execute refuses, one word is taken a step and nothing else changes (log entry 10, DEDUCED). -/
def Obligations.StepFollowsExecute : Prop :=
  (∀ (s : State) (cw : CommandWord) (ops : List Word) (rest : List HostInput),
    s.InService → s.input = .command cw :: (ops.map .operand ++ rest) →
    ops.length = (if IllegalWord cw then 0 else declaredOperands cw) →
    step s = .next (pseudoExecute cw ops { s with input := rest })) ∧
  (∀ (s : State) (cw : CommandWord) (ops : List Word) (rest : List HostInput),
    s.fault = true → s.input = .command cw :: rest →
    step s = .next (pseudoExecute cw ops { s with input := rest }) ∧
      pseudoExecute cw ops { s with input := rest } = { s with input := rest })

/-- R168: with nothing on the input the engine holds its state unchanged. -/
def Obligations.IdleEngineHoldsState : Prop :=
  ∀ s : State, s.input = [] → step s = .next s

/-- The engine takes a command only once all its operand words are present: until then nothing changes (the first clauses
of 30_encoding.md section 1; that a part of a command waits is the model's reading, log
entry 3, and for an overlong SEED_ARRAY log entry 7). -/
def Obligations.PartialCommandWaits : Prop :=
  ∀ (s : State) (cw : CommandWord) (ops : List Word),
    s.InService → ¬ IllegalWord cw → s.input = .command cw :: ops.map .operand →
    ops.length < declaredOperands cw → step s = .next s

/-- Reset takes effect only between commands (70_reset_and_hazards.md section 1). A command whose words have all arrived
runs first and leaves the reset to come; a command cut short by reset has no effect, the step being the one the reset
alone would give. That the reset stands in arrival order with the words, and that it cuts a part of a command short in one
step, is the model's reading, log entries 9 and 10 (DEDUCED). -/
def Obligations.ResetOnlyBetweenCommands : Prop :=
  (∀ (s : State) (i : Instr) (rest : List HostInput), s.InService → i.WellFormed →
    s.input = encode i ++ .reset :: rest → step s = exec i { s with input := .reset :: rest }) ∧
  (∀ (s : State) (cw : CommandWord) (ops : List Word) (rest : List HostInput), s.InService → ¬ IllegalWord cw →
    s.input = .command cw :: (ops.map .operand ++ .reset :: rest) → ops.length < declaredOperands cw →
    step s = step { s with input := .reset :: rest })

/-- What the reset signal leaves, on any engine, faulted or not: the fields the spec gives a value, the host's later
sends, the results already emitted and the configuration (70_reset_and_hazards.md section 1; that the results and the
configuration are kept is the model's choice, log entries 4 and 2). -/
def Obligations.ResetRestartsTheEngine : Prop :=
  ∀ (s : State) (rest : List HostInput), s.input = .reset :: rest →
    ∃ t, step s = .next t ∧ t.seeded = false ∧ t.fault = false ∧ t.cause = 0#4 ∧ t.twists = 0 ∧ status t = 0#32 ∧
      t.input = rest ∧ t.results = s.results ∧ t.config = s.config

/-- A step never stops with a fault, and it has no move only where the host breaks its duty: an operand word where a
command word is due, or a command word inside another command (60_exceptions.md sections 1 and 3; that the model then
refuses, and that part of a command waits, is log entry 3). -/
def Obligations.StepMovesUnlessHostBreaksItsDuty : Prop :=
  ∀ s : State, (∃ t, step s = .next t) ∨
    (s.InService ∧ (∃ r, step s = .refused r) ∧
      ((∃ w rest, s.input = .operand w :: rest) ∨
        ∃ (cw : CommandWord) (ops : List Word) (cw' : CommandWord) (rest : List HostInput), ¬ IllegalWord cw ∧ ops.length < declaredOperands cw ∧
          s.input = .command cw :: (ops.map .operand ++ .command cw' :: rest)))

/-! ### State that steps keep -/

/-- The invariant holds right after reset (its KEY_MAX clause rests on the model's own value, log entry 2). -/
def Obligations.ResetMeetsTheInvariant : Prop := State.reset.Inv

/-- Every step keeps the invariant: the cursor of a seeded engine in 0..312, CAUSE a legal code that is 0 exactly without
a fault, KEY_MAX in its range (10_state.md sections 2 and 3). -/
def Obligations.StepKeepsTheInvariant : Prop :=
  ∀ s t : State, s.Inv → step s = .next t → t.Inv

/-- What reset leaves of the values the spec gives: seeded, FAULT, CAUSE, STATUS and the ghost counter
(10_state.md section 5); S and index are unspecified and nothing is said of them. -/
def Obligations.ResetValues : Prop :=
  State.reset.seeded = false ∧ State.reset.fault = false ∧ State.reset.cause = 0#4 ∧ State.reset.twists = 0 ∧
    status State.reset = 0#32

/-- The fields of STATUS (10_state.md section 3): SEEDED, FAULTED, the hardwired zeros and CAUSE. -/
def Obligations.StatusRegisterFields : Prop :=
  ∀ s : State, (status s).getLsbD 0 = s.seeded ∧ (status s).getLsbD 1 = s.fault ∧
    (status s).extractLsb' 2 2 = 0#2 ∧ (status s).extractLsb' 4 4 = s.cause ∧ (status s).extractLsb' 8 24 = 0#24

/-- No step writes the configuration (00_scope.md section 4: KEY_MAX is a parameter; that State carries it is the model's
choice, log entry 2). -/
def Obligations.StepNeverWritesTheConfiguration : Prop :=
  ∀ s t : State, step s = .next t → t.config = s.config

/-- Only reset clears seeded (10_state.md section 2); the model's own count of resets, log entry 1, then rises by 1. -/
def Obligations.SeededClearedOnlyByReset : Prop :=
  ∀ s t : State, step s = .next t → s.seeded = true → t.seeded = false →
    HostInput.reset ∈ s.input ∧ t.epoch = s.epoch + 1

/-- A step emits at most one result word, after those already emitted, and only a NEXT_* command emits one
(20_memory.md section 2, 30_encoding.md section 2). That no step takes a word off the results, and that a reset keeps
them, is the model's choice, log entry 4. -/
def Obligations.StepEmitsAtMostOneWord : Prop :=
  ∀ s t : State, step s = .next t → t.results = s.results ∨
    ∃ w i rest, t.results = s.results ++ [w] ∧ decode s.input = .ok (i, rest) ∧ (resultConversion i).isSome

/-- Between resets a twist runs only inside a draw, at most once, and the draw then leaves the cursor at 1
(41_twist.md section 1). -/
def Obligations.TwistRunsOnlyInsideADraw : Prop :=
  ∀ s t : State, step s = .next t → t.epoch = s.epoch → t.twists ≠ s.twists →
    ∃ i rest, decode s.input = .ok (i, rest) ∧ (resultConversion i).isSome ∧ t.twists = s.twists + 1 ∧ t.index = 1#9

/-- The unspecified contents of S and index before the first seeding decide nothing: from any other contents the step
leaves either the same state, or a state still unseeded that differs in those contents alone (the spec's derived sentence
"No result can depend on them", 10_state.md section 5). That a reset step leaves the same state in both runs is the model's
choice, log entry 1: the new free contents are numbered by the count of resets, and two engines need not share them. -/
def Obligations.UnspecifiedStateDecidesNothing : Prop :=
  ∀ (s t : State) (S' : StateArray) (x : BitVec 9), s.seeded = false → step s = .next t →
    ∃ t', step { s with S := S', index := x } = .next t' ∧
      (t' = t ∨ (t.seeded = false ∧ t' = { t with S := S', index := x }))

/-! ### Faults -/

/-- An illegal command word raises ILLEGAL_COMMAND: OP outside the seven, or LEN != 0 with a legal OP other than 0x02
(60_exceptions.md section 1); FAULT and CAUSE are written and nothing else. That it faults at once, whatever follows it,
and that only that word is taken, is the model's reading, log entry 7 (DEDUCED). -/
def Obligations.IllegalCommandWordFaults : Prop :=
  ∀ (s : State) (cw : CommandWord) (rest : List HostInput),
    s.InService → IllegalWord cw → s.input = .command cw :: rest →
    step s = .next { s with input := rest, fault := true, cause := 1#4 }

/-- R153: SEED_ARRAY with LEN = 0 raises EMPTY_KEYS and S, index, seeded and everything else keep their values. -/
def Obligations.EmptyKeySequenceFaults : Prop :=
  ∀ s : State, s.InService → exec (.seedArray []) s = .next { s with fault := true, cause := 2#4 }

/-- R154: SEED_ARRAY with LEN > KEY_MAX raises KEY_OVERFLOW before any state write. -/
def Obligations.TooManyKeysFault : Prop :=
  ∀ (s : State) (keys : List Word), s.InService → keys.length > s.config.keyMax →
    exec (.seedArray keys) s = .next { s with fault := true, cause := 3#4 }

/-- R158: faults are precise. A step that leaves an engine faulted that was in service changed FAULT, CAUSE and the words
taken off the input, and nothing else; the cause is one of the three. -/
def Obligations.FaultsArePrecise : Prop :=
  ∀ s t : State, s.InService → step s = .next t → t.fault = true →
    t = { s with input := t.input, fault := true, cause := t.cause } ∧ t.cause ∈ [1#4, 2#4, 3#4]

/-- A faulted engine discards every command word and operand word, changes no state and emits nothing; STATUS shows
FAULTED and the CAUSE; only reset clears FAULT (60_exceptions.md section 1). `exec` of any command on it changes nothing.
That a step discards exactly one word (log entry 10, DEDUCED), and that the reset that clears FAULT is the one at the front
of the input, words ahead of it being discarded first (log entries 10 and 9, DEDUCED), is the model's reading. -/
def Obligations.FaultedEngineDiscards : Prop :=
  ∀ s : State, s.fault = true →
    (∀ cw rest, s.input = .command cw :: rest → step s = .next { s with input := rest }) ∧
    (∀ w rest, s.input = .operand w :: rest → step s = .next { s with input := rest }) ∧
    (∀ i, exec i s = .next s) ∧
    (status s).getLsbD 1 = true ∧ (status s).extractLsb' 4 4 = s.cause ∧
    (∀ t, step s = .next t → t.fault = false → ∃ rest, s.input = .reset :: rest)

/-! ### Seeding -/

/-- R80, through SEED: for each v there is one state vector S' with S'[0] = v and every later word the recurrence of the
word before it, and SEED v leaves S' on every engine in service, sets seeded and index to 1 and 0, and changes nothing
else: the result depends on v alone. -/
def Obligations.SeedLoadsTheRecurrence : Prop :=
  ∀ v : Word, ∃ S' : StateArray,
    S'[0] = v ∧
    (∀ (i : Nat) (h : i < 311), S'[i + 1] =
      6364136223846793005#64 * (S'[i] ^^^ (S'[i] >>> 62)) + BitVec.ofNat 64 (i + 1)) ∧
    ∀ s : State, s.InService → exec (.seed v) s = .next { s with S := S', seeded := true, index := 0#9 }

/-- R80: SEED v leaves in S what the in-place loop of ScalarSeed leaves there, whatever S held before. -/
def Obligations.SeedMatchesInPlaceLoop : Prop :=
  ∀ (v : Word) (s : State), s.InService →
    exec (.seed v) s = .next { s with S := inPlaceScalarSeed v s.S, seeded := true, index := 0#9 }

/-- R82: SEED_ARRAY of 1 to KEY_MAX keys leaves in S what the two in-place loops and the last write of ArraySeed leave
there, sets seeded and index, emits nothing and changes nothing else. -/
def Obligations.SeedArrayMatchesInPlaceLoops : Prop :=
  ∀ (keys : List Word) (s : State), s.InService → 1 ≤ keys.length → keys.length ≤ s.config.keyMax →
    exec (.seedArray keys) s = .next { s with S := inPlaceArraySeed keys s.S, seeded := true, index := 0#9 }

/-- ArraySeed's result is a function of the key sequence alone, with S[0] = 0x8000000000000000 and index = 0 (the
properties 40_seeding.md section 2 marks as derived). -/
def Obligations.SeedArrayDependsOnTheKeysAlone : Prop :=
  ∀ keys : List Word, keys ≠ [] → ∃ S' : StateArray, S'[0] = 0x8000000000000000#64 ∧
    ∀ s : State, s.InService → keys.length ≤ s.config.keyMax →
      exec (.seedArray keys) s = .next { s with S := S', seeded := true, index := 0#9 }

/-- Where the array-seeding cursor stands: i = 1 + (max(312, L) mod 311) after the first loop and again after the second,
in the in-place loops and in the model's cursor (the counts 40_seeding.md section 2 marks as derived). -/
def Obligations.ArraySeedCursorPositions : Prop :=
  ∀ (keys : List Word) (S : StateArray),
    (inPlaceKeyLoop keys (max 312 keys.length) 1 0 S).2 = 1 + max 312 keys.length % 311 ∧
    (∀ (i : Nat), 1 ≤ i → i ≤ 311 → (inPlaceCloseLoop 311 i S).2 = i) ∧
    (keyLoop keys (max 312 keys.length) 0 bootCursor).i = 1 + max 312 keys.length % 311 ∧
    (arrayCursor keys).i = 1 + max 312 keys.length % 311

/-- No seeding leaves an effective state that is all zero: after SEED some word of S[1..311] is not 0, after SEED_ARRAY
bit 63 of S[0] is 1 (41_twist.md section 2, marked as derived there). -/
def Obligations.NoSeedingLeavesAZeroState : Prop :=
  (∀ (v : Word) (s t : State), s.InService → exec (.seed v) s = .next t →
    ∃ (k : Nat) (h : k < 311), t.S[k + 1] ≠ 0#64) ∧
  (∀ (keys : List Word) (s t : State), s.InService → exec (.seedArray keys) s = .next t → t.fault = false →
    t.S[0].getLsbD 63 = true)

/-! ### Twist -/

/-- R100: Twist leaves in S what the in-place loop leaves there, the ghost counter rises by 1, and nothing else changes. -/
def Obligations.TwistMatchesInPlaceLoop : Prop :=
  ∀ s : State, twist s = { s with S := inPlaceTwist s.S, twists := s.twists + 1 }

/-- The closed form of the in-place loop, position by position: positions 156 to 311 use new words (41_twist.md section 1
and 70_reset_and_hazards.md section 3, marked as derived there). -/
def Obligations.InPlaceTwistClosedForm : Prop :=
  ∀ old : StateArray,
    (∀ (i : Nat) (h : i < 156), (inPlaceTwist old)[i] = old[i + 156] ^^^ mix old[i] old[i + 1]) ∧
    (∀ (i : Nat) (h : i < 155), (inPlaceTwist old)[i + 156] =
      (inPlaceTwist old)[i] ^^^ mix old[i + 156] old[i + 157]) ∧
    (inPlaceTwist old)[311] = (inPlaceTwist old)[155] ^^^ mix old[311] (inPlaceTwist old)[0]

/-- Mix joins bits 63..31 of u to bits 30..0 of l, shifts right by one, and XORs MATRIX_A exactly when bit 0 of l is 1
(41_twist.md section 1, marked as derived there). -/
def Obligations.MixJoinsTheWords : Prop :=
  ∀ u l : Word, mix u l =
    ((u.extractLsb' 31 33 ++ l.extractLsb' 0 31 : BitVec 64) >>> 1) ^^^
      (if l.getLsbD 0 then 0xB5026F5AA96619E9#64 else 0#64)

/-- Twist is linear over GF(2), and the all-zero state is its fixed point (41_twist.md section 2, marked as derived
there). -/
def Obligations.TwistIsLinear : Prop :=
  (∀ A B : StateArray, twistWords (Vector.zipWith (fun a b => a ^^^ b) A B) =
    Vector.zipWith (fun a b => a ^^^ b) (twistWords A) (twistWords B)) ∧
  twistWords (Vector.replicate 312 0#64) = Vector.replicate 312 0#64

/-- Bits 30..0 of S[0] before a twist never matter: on two engines that differ only there and whose next draw twists,
every NEXT_* command leaves the same state and the same results (41_twist.md section 2, marked as derived there). -/
def Obligations.LowBitsOfTheFirstWordNeverMatter : Prop :=
  ∀ (s : State) (S' : StateArray) (i : Instr), (resultConversion i).isSome → s.InService → s.seeded = true →
    s.Exhausted → SameEffective s.S S' → exec i s = exec i { s with S := S' }

/-! ### Draws and results -/

/-- The tempering cascade step by step, each step on the word the step before it produced, and the worked example
(42_output.md section 1). -/
def Obligations.TemperingCascade : Prop :=
  (∀ y0 y1 y2 y3 : Word,
    y1 = y0 ^^^ ((y0 >>> 29) &&& 0x5555555555555555#64) →
    y2 = y1 ^^^ ((y1 <<< 17) &&& 0x71D67FFFEDA60000#64) →
    y3 = y2 ^^^ ((y2 <<< 37) &&& 0xFFF7EEE000000000#64) →
    temper y0 = y3 ^^^ (y3 >>> 43)) ∧
  temper 0x245B1C66F2BDC210#64 = 0xC96D191CF6F6AEA6#64

/-- Tempering is XOR-linear, and Temper(0) = 0 (42_output.md section 1, marked as derived there). -/
def Obligations.TemperingIsLinear : Prop :=
  (∀ a b : Word, temper (a ^^^ b) = temper a ^^^ temper b) ∧ temper 0#64 = 0#64

/-- R120: each NEXT_* command does Draw() as its five steps are written, with the in-place seeding and twist, and emits
the drawn word converted; it raises no fault. -/
def Obligations.DrawFollowsItsSteps : Prop :=
  ∀ (s : State) (i : Instr) (convert : Word → Word), resultConversion i = some convert → s.InService →
    exec i s = .next (pseudoEmit convert s)

/-- NEXT_U64, NEXT_I63, NEXT_F64A, NEXT_F64B, NEXT_F64C inside a generation: the word at the cursor is tempered,
converted and emitted, the cursor advances, and nothing else changes: S is not written (42_output.md sections 1 to 3). -/
def Obligations.DrawInsideAGeneration : Prop :=
  ∀ (s : State) (i : Instr) (convert : Word → Word), resultConversion i = some convert → s.InService →
    s.seeded = true → ∀ h : s.index.toNat < 312, 1 ≤ s.index.toNat →
    exec i s = .next { s with index := s.index + 1#9,
                              results := s.results ++ [convert (temper s.S[s.index.toNat])] }

/-- NEXT_U64, NEXT_I63, NEXT_F64A, NEXT_F64B, NEXT_F64C with the cursor at 0 or at least 312: the twist runs first, word
0 of the new generation is emitted and the cursor is left at 1 (42_output.md section 1). -/
def Obligations.DrawStartsAGeneration : Prop :=
  ∀ (s : State) (i : Instr) (convert : Word → Word), resultConversion i = some convert → s.InService →
    s.seeded = true → s.Exhausted →
    exec i s = .next { s with S := inPlaceTwist s.S, twists := s.twists + 1, index := 1#9,
                              results := s.results ++ [convert (temper (inPlaceTwist s.S)[0])] }

/-- A NEXT_* command on a never-seeded engine is the same command on the engine after SEED 5489 (the default-seed
equivalence 42_output.md section 4 marks as derived). -/
def Obligations.NeverSeededDrawIsDefaultSeeded : Prop :=
  ∀ (s : State) (i : Instr), (resultConversion i).isSome → s.InService → s.seeded = false →
    ∃ u t, exec (.seed 5489#64) s = .next u ∧ exec i u = .next t ∧ exec i s = .next t

/-- The kind of a NEXT_* command changes only the conversion of the word drawn: it leaves what NEXT_U64 leaves but for
that result word (42_output.md section 4, marked as derived there). -/
def Obligations.CommandKindChangesOnlyTheConversion : Prop :=
  ∀ (s : State) (i : Instr) (convert : Word → Word), resultConversion i = some convert → s.InService →
    ∃ x t, exec .nextU64 s = .next t ∧ t.results = s.results ++ [x] ∧
      exec i s = .next { t with results := s.results ++ [convert x] }

/-- NEXT_I63's result is half the drawn word rounded down, and as a signed integer it is never negative
(42_output.md sections 2 and 4). -/
def Obligations.I63HalvesTheWord : Prop :=
  ∀ (s : State), s.InService → ∃ x r t u, exec .nextU64 s = .next t ∧ t.results = s.results ++ [x] ∧
    exec .nextI63 s = .next u ∧ u.results = s.results ++ [r] ∧ r.toNat = x.toNat / 2 ∧ r.toInt = ((x.toNat / 2 : Nat) : Int) ∧
    0 ≤ r.toInt

/-- NEXT_F64A's integer procedure gives the bits of f64mul(f64(x >> 11), RA), for every drawn word x
(42_output.md section 3). -/
def Obligations.VariantAIntegerProcedure : Prop :=
  ∀ x : Word, f64mul (f64 (x >>> 11).toNat) 0x3CA0000000000001#64 = procedureA (x >>> 11).toNat

/-- NEXT_F64B's integer procedure gives the bits of f64mul(f64(x >> 11), RB), for every drawn word x
(42_output.md section 3). -/
def Obligations.VariantBIntegerProcedure : Prop :=
  ∀ x : Word, f64mul (f64 (x >>> 11).toNat) 0x3CA0000000000000#64 = procedureB (x >>> 11).toNat

/-- NEXT_F64C's integer procedure gives the bits of f64mul(f64add(f64(x >> 12), HALF), RC), for every drawn word x
(42_output.md section 3). -/
def Obligations.VariantCIntegerProcedure : Prop :=
  ∀ x : Word, f64mul (f64add (f64 (x >>> 12).toNat) 0x3FE0000000000000#64) 0x3CB0000000000000#64 =
    procedureC (x >>> 12).toNat

/-- Every float result is a non-negative finite binary64 pattern, zero or normal, within its variant's bounds; patterns of
non-negative values are ordered as the values are (the ranges 42_output.md section 4 marks as derived). -/
def Obligations.FloatResultsInRange : Prop :=
  ∀ x : Word,
    ((convertF64A x).toNat ≤ 0x3FF0000000000000 ∧
      (convertF64A x = 0#64 ∨ 0x0010000000000000 ≤ (convertF64A x).toNat)) ∧
    ((convertF64B x).toNat ≤ 0x3FEFFFFFFFFFFFFF ∧
      (convertF64B x = 0#64 ∨ 0x0010000000000000 ≤ (convertF64B x).toNat)) ∧
    (0x3CA0000000000000 ≤ (convertF64C x).toNat ∧ (convertF64C x).toNat ≤ 0x3FEFFFFFFFFFFFFF)

/-- The corner cases of the float conversions: the smallest and the largest drawn words reach the bounds
(42_output.md section 3). -/
def Obligations.FloatCornerCases : Prop :=
  (∀ x : Word, x.toNat < 2 ^ 11 → convertF64A x = 0#64 ∧ convertF64B x = 0#64) ∧
  (∀ x : Word, x.toNat < 2 ^ 12 → convertF64C x = 0x3CA0000000000000#64) ∧
  (∀ x : Word, 0xFFFFFFFFFFFFF000 ≤ x.toNat →
    convertF64A x = 0x3FF0000000000000#64 ∧ convertF64C x = 0x3FEFFFFFFFFFFFFF#64) ∧
  (∀ x : Word, 0xFFFFFFFFFFFFF800 ≤ x.toNat → convertF64B x = 0x3FEFFFFFFFFFFFFF#64)

/-- The constants of the float conversions: RA is the binary64 value nearest to 1 / (2^53 - 1), strictly, and RB, RC and
HALF are 2^-53, 2^-52 and 2^-1 exactly, in units of 2^-1074 (42_output.md section 3, marked as general knowledge there). -/
def Obligations.FloatConstantsAreTheRoundedReciprocals : Prop :=
  2 * (unitsOf recipA * (2 ^ 53 - 1)) < 2 * 2 ^ 1074 + 2 ^ exponent recipA * (2 ^ 53 - 1) ∧
  2 * 2 ^ 1074 < 2 * (unitsOf recipA * (2 ^ 53 - 1)) + 2 ^ exponent recipA * (2 ^ 53 - 1) ∧
  unitsOf recipB * 2 ^ 53 = 2 ^ 1074 ∧ unitsOf recipC * 2 ^ 52 = 2 ^ 1074 ∧ unitsOf half * 2 = 2 ^ 1074

/-! ### Runs of draws -/

/-- After d >= 1 draws from a freshly seeded engine the cursor is ((d - 1) mod 312) + 1 and (d - 1) div 312 + 1 twists
have run, whatever kinds of NEXT_* commands drew (10_state.md section 2 and 42_output.md section 4, marked as derived
there). -/
def Obligations.TwistSchedule : Prop :=
  ∀ (s : State) (draws : List Instr), s.InService → s.seeded = true → s.index = 0#9 → draws ≠ [] →
    (∀ i ∈ draws, (resultConversion i).isSome) →
    ∃ t, runCommands draws s = .next t ∧
      t.index.toNat = (draws.length - 1) % 312 + 1 ∧
      t.twists = s.twists + ((draws.length - 1) / 312 + 1) ∧
      t.S = inPlaceTwist^[(draws.length - 1) / 312 + 1] s.S ∧
      t.results.length = s.results.length + draws.length

/-- The draw after d earlier draws from a freshly seeded engine returns the tempered word d mod 312 of the state
generation number d div 312 + 1 (42_output.md section 4, marked as derived there). -/
def Obligations.DrawReadsItsGeneration : Prop :=
  ∀ (s : State) (draws : List Instr) (i : Instr) (convert : Word → Word), s.InService → s.seeded = true →
    s.index = 0#9 → (∀ j ∈ draws, (resultConversion j).isSome) → resultConversion i = some convert →
    ∃ t u, runCommands draws s = .next t ∧ exec i t = .next u ∧
      u.results = t.results ++
        [convert (temper (readWord (inPlaceTwist^[draws.length / 312 + 1] s.S) (draws.length % 312)))]

/-- A program on a never-seeded engine returns the same result words with SEED 5489 (SEED_DEFAULT) sent before it
(30_encoding.md section 4, marked as derived there). -/
def Obligations.SeedDefaultChangesNoResult : Prop :=
  ∀ (s t : State) (cmds : List Instr), s.InService → s.seeded = false → runCommands cmds s = .next t →
    ∃ u, runCommands (.seed 5489#64 :: cmds) s = .next u ∧ u.results = t.results

/-! ### The assembly text -/

/-- Every command the assembler accepts has an encoding, and what the engine decodes from its words is that command
(30_encoding.md section 4). -/
def Obligations.AssembledTextDecodes : Prop :=
  ∀ (text : List Char) (cmds : List Instr), assembleText text = some cmds →
    ∀ i ∈ cmds, i.WellFormed ∧ decode (encode i) = .ok (i, [])

/-- The literals the assembler accepts: a SEED operand in -2^63 .. 2^64-1, standing for its pattern modulo 2^64, SEED_ARRAY
operands in 0 .. 2^64-1 standing for themselves, and at least one of them (30_encoding.md section 4). -/
def Obligations.AssemblerOperandRanges : Prop :=
  (∀ (n : Int) (v : Word), assembleCommand (.seed n) = some (.seed v) ↔
    -(2 ^ 63) ≤ n ∧ n < 2 ^ 64 ∧ (v.toNat : Int) = n % 2 ^ 64) ∧
  (∀ (ns : List Int) (keys : List Word), assembleCommand (.seedArray ns) = some (.seedArray keys) →
    keys ≠ [] ∧ ns = keys.map (fun w => (w.toNat : Int)))
end

