-- ==== Sys2Proof/Laws/Decode.lean ====
section
/-! SUPPORT. What the decoder's parts can do, said once. -/

namespace Sys2Proof

/-! ### Fields of a command word -/

/-- A command word as a number: LEN above OP (R61). -/
theorem commandWord_toNat (len : BitVec 24) (op : BitVec 8) :
    (commandWord len op).toNat = len.toNat * 256 + op.toNat := by
  simp only [commandWord, BitVec.toNat_append]
  rw [← Nat.shiftLeft_add_eq_or_of_lt op.isLt, Nat.shiftLeft_eq]

theorem opField_toNat (cw : CommandWord) : (opField cw).toNat = cw.toNat % 256 := by
  simp [opField, BitVec.extractLsb'_toNat]

theorem lenField_toNat (cw : CommandWord) : (lenField cw).toNat = cw.toNat / 256 := by
  simp only [lenField, BitVec.extractLsb'_toNat, Nat.shiftRight_eq_div_pow]
  omega

@[simp] theorem opField_commandWord (len : BitVec 24) (op : BitVec 8) : opField (commandWord len op) = op :=
  BitVec.eq_of_toNat_eq (by rw [opField_toNat, commandWord_toNat]; omega)

@[simp] theorem lenField_commandWord (len : BitVec 24) (op : BitVec 8) : lenField (commandWord len op) = len :=
  BitVec.eq_of_toNat_eq (by rw [lenField_toNat, commandWord_toNat]; omega)

/-- A command word is its LEN and OP fields (R61). -/
theorem commandWord_fields (cw : CommandWord) : commandWord (lenField cw) (opField cw) = cw :=
  BitVec.eq_of_toNat_eq (by rw [commandWord_toNat, opField_toNat, lenField_toNat]; omega)

/-! ### Taking operand words -/

/-- Operand words that have all arrived are taken, in order. -/
theorem takeOperands_operands : ∀ (ws : List Word) (rest : List HostInput),
    takeOperands ws.length (ws.map .operand ++ rest) = .ok (ws, rest)
  | [], rest => by cases rest <;> rfl
  | w :: ws, rest => by simp [takeOperands, takeOperands_operands ws rest]

/-- Taking `n` operand words takes exactly the `n` words at the front. -/
theorem takeOperands_ok : ∀ (n : Nat) (inp : List HostInput) (ws : List Word) (rest : List HostInput),
    takeOperands n inp = .ok (ws, rest) → ws.length = n ∧ inp = ws.map .operand ++ rest
  | 0, inp, ws, rest, h => by
    cases inp <;> simp_all [takeOperands]
  | n + 1, [], ws, rest, h => by simp [takeOperands] at h
  | n + 1, .reset :: _, ws, rest, h => by simp [takeOperands] at h
  | n + 1, .command _ :: _, ws, rest, h => by simp [takeOperands] at h
  | n + 1, .operand w :: inp, ws, rest, h => by
    rw [takeOperands] at h
    split at h
    · rename_i ws' rest' h'
      obtain ⟨rfl, rfl⟩ : w :: ws' = ws ∧ rest' = rest := by simpa using h
      obtain ⟨rfl, rfl⟩ := takeOperands_ok n inp ws' rest' h'
      simp
    · cases h

/-- The ways operand words can fail to be taken. -/
theorem takeOperands_error : ∀ (n : Nat) (inp : List HostInput) (e : Reject), takeOperands n inp = .error e →
    e = .incomplete ∨ (e = .resetAhead ∧ HostInput.reset ∈ inp) ∨ e = .commandInsideOperands
  | 0, inp, e, h => by cases inp <;> simp [takeOperands] at h
  | n + 1, [], e, h => by simp_all [takeOperands]
  | n + 1, .reset :: _, e, h => by simp_all [takeOperands]
  | n + 1, .command _ :: _, e, h => by simp_all [takeOperands]
  | n + 1, .operand w :: inp, e, h => by
    rw [takeOperands] at h
    split at h
    · cases h
    · rename_i e' h'
      obtain rfl : e' = e := by simpa using h
      rcases takeOperands_error n inp e' h' with h | ⟨h, hm⟩ | h
      · exact .inl h
      · exact .inr (.inl ⟨h, List.mem_cons_of_mem _ hm⟩)
      · exact .inr (.inr h)

/-- Operand words still missing at the end of the input leave the command incomplete (R60). -/
theorem takeOperands_short : ∀ (ws : List Word) (n : Nat), ws.length < n →
    takeOperands n (ws.map .operand) = .error .incomplete
  | [], n + 1, _ => rfl
  | w :: ws, n + 1, h => by
    simp [takeOperands, takeOperands_short ws n (by simpa using h)]

/-- A reset ahead of the missing operand words cuts the command off (R181). -/
theorem takeOperands_cut : ∀ (ws : List Word) (n : Nat) (rest : List HostInput), ws.length < n →
    takeOperands n (ws.map .operand ++ .reset :: rest) = .error .resetAhead
  | [], n + 1, _, _ => rfl
  | w :: ws, n + 1, rest, h => by
    simp [takeOperands, takeOperands_cut ws n rest (by simpa using h)]

/-! ### The command word's checks -/

/-- The ways a command word can fail its checks: both are ILLEGAL_COMMAND (R65). -/
theorem checkCommand_error {cw : CommandWord} {e : Reject} (h : checkCommand cw = .error e) :
    e = .illegalOpcode (opField cw) ∨ e = .lenNotZero (opField cw) (lenField cw) := by
  unfold checkCommand at h
  split at h
  · cases h
  · split at h
    · split at h
      · cases h
      · exact .inr (by injection h with h; exact h.symm)
    · exact .inl (by injection h with h; exact h.symm)

/-- A word the checks reject is rejected by the decoder with the same reason. -/
theorem decode_of_checkCommand_error {cw : CommandWord} {e : Reject} (inp : List HostInput)
    (h : checkCommand cw = .error e) : decode (.command cw :: inp) = .error e := by
  simp [decode, h]

/-- A word that passes the checks: the decoder assembles the command from the operand words it takes. -/
theorem decode_of_checkCommand_ok {cw : CommandWord} (inp : List HostInput) (h : checkCommand cw = .ok ()) :
    decode (.command cw :: inp) = decodeChecked cw inp := by
  simp [decode, h]

/-- Operand words that cannot be taken: the decoder's reason is why. -/
theorem decodeChecked_error {cw : CommandWord} {inp : List HostInput} {e : Reject}
    (h : takeOperands (operandCount cw) inp = .error e) : decodeChecked cw inp = .error e := by
  simp [decodeChecked, h]

/-- A checked command word with as many operand words as it declares always assembles (R62, R64). -/
theorem assemble_of_checked {cw : CommandWord} {ops : List Word} (h : checkCommand cw = .ok ())
    (hn : ops.length = operandCount cw) : ∃ i, assemble (opField cw) ops = .ok i ∧ opcode i = opField cw ∧
      operands i = ops ∧ (∀ keys, i = .seedArray keys → keys.length = (lenField cw).toNat) ∧
      ((∀ keys, i ≠ .seedArray keys) → lenField cw = 0#24) := by
  unfold checkCommand at h
  split at h
  · rename_i h2
    refine ⟨.seedArray ops, by simp [assemble, h2], by simp [opcode, h2], rfl, ?_, fun c => (c ops rfl).elim⟩
    intro keys hk
    cases hk
    simpa [operandCount, h2] using hn
  · rename_i h2
    split at h
    · rename_i hf
      split at h
      · rename_i hl
        simp only [isFixedOpcode, Bool.or_eq_true, beq_iff_eq] at hf
        rcases hf with ((((hf | hf) | hf) | hf) | hf) | hf
        · obtain ⟨v, rfl⟩ := List.length_eq_one_iff.1 (by simpa [operandCount, hf] using hn)
          exact ⟨.seed v, by simp [assemble, hf], by simp [opcode, hf], rfl, by simp, fun _ => hl⟩
        all_goals
          obtain rfl := List.length_eq_zero_iff.1 (by simpa [operandCount, hf] using hn)
        · exact ⟨.nextU64, by simp [assemble, hf], by simp [opcode, hf], rfl, by simp, fun _ => hl⟩
        · exact ⟨.nextI63, by simp [assemble, hf], by simp [opcode, hf], rfl, by simp, fun _ => hl⟩
        · exact ⟨.nextF64A, by simp [assemble, hf], by simp [opcode, hf], rfl, by simp, fun _ => hl⟩
        · exact ⟨.nextF64B, by simp [assemble, hf], by simp [opcode, hf], rfl, by simp, fun _ => hl⟩
        · exact ⟨.nextF64C, by simp [assemble, hf], by simp [opcode, hf], rfl, by simp, fun _ => hl⟩
      · cases h
    · cases h

/-- The decoder's rejections, each with what stands at the front of the input. -/
theorem decode_error {inp : List HostInput} {e : Reject} (h : decode inp = .error e) :
    (e = .noCommand ∧ inp = []) ∨ (e = .resetAhead ∧ HostInput.reset ∈ inp) ∨
    (e = .operandWithoutCommand ∧ ∃ w rest, inp = .operand w :: rest) ∨
    (∃ cw rest, inp = .command cw :: rest ∧ checkCommand cw = .error e) ∨
    (∃ cw rest, inp = .command cw :: rest ∧ checkCommand cw = .ok () ∧
      (e = .incomplete ∨ e = .commandInsideOperands)) := by
  rcases inp with _ | ⟨cw | w | _, inp⟩
  · simp_all [decode]
  · rcases hc : checkCommand cw with e' | ⟨⟩
    · have := decode_of_checkCommand_error inp hc
      rw [h] at this
      obtain rfl : e = e' := by simpa using this
      exact .inr (.inr (.inr (.inl ⟨cw, inp, rfl, hc⟩)))
    · rw [decode_of_checkCommand_ok inp hc, decodeChecked] at h
      split at h
      · rename_i e' h'
        obtain rfl : e' = e := by simpa using h
        rcases takeOperands_error _ _ _ h' with h | ⟨h, hm⟩ | h
        · exact .inr (.inr (.inr (.inr ⟨cw, inp, rfl, hc, .inl h⟩)))
        · exact .inr (.inl ⟨h, List.mem_cons_of_mem _ hm⟩)
        · exact .inr (.inr (.inr (.inr ⟨cw, inp, rfl, hc, .inr h⟩)))
      · rename_i ops rest h'
        obtain ⟨i, hi, -⟩ := assemble_of_checked hc (takeOperands_ok _ _ _ _ h').1
        simp [hi] at h
  · simp_all [decode]
  · simp_all [decode]

/-- An illegal command word is the word at the front (R65). -/
theorem decode_illegal_front {inp : List HostInput}
    (h : (∃ op, decode inp = .error (.illegalOpcode op)) ∨ ∃ op len, decode inp = .error (.lenNotZero op len)) :
    ∃ cw rest, inp = .command cw :: rest := by
  have : ∀ e, decode inp = .error e → (∃ op, e = .illegalOpcode op) ∨ (∃ op len, e = .lenNotZero op len) →
      ∃ cw rest, inp = .command cw :: rest := by
    intro e he hk
    rcases decode_error he with ⟨rfl, -⟩ | ⟨rfl, -⟩ | ⟨rfl, -⟩ | ⟨cw, rest, hi, -⟩ | ⟨cw, rest, hi, -⟩
    · simp at hk
    · simp at hk
    · simp at hk
    · exact ⟨cw, rest, hi⟩
    · exact ⟨cw, rest, hi⟩
  rcases h with ⟨op, h⟩ | ⟨op, len, h⟩
  · exact this _ h (.inl ⟨op, rfl⟩)
  · exact this _ h (.inr ⟨op, len, rfl⟩)

/-- A command is cut off by reset only when a reset has been asked for (R181). -/
theorem decode_resetAhead_mem {inp : List HostInput} (h : decode inp = .error .resetAhead) :
    HostInput.reset ∈ inp := by
  rcases decode_error h with ⟨h, -⟩ | ⟨-, h⟩ | ⟨h, -⟩ | ⟨cw, rest, -, h⟩ | ⟨cw, rest, -, -, h⟩
  · cases h
  · exact h
  · cases h
  · rcases checkCommand_error h with h | h <;> cases h
  · rcases h with h | h <;> cases h

end Sys2Proof
end

