-- ==== Sys2Proof/Laws/State.lean ====
section
/-! SUPPORT. What each named update of State does to each field: one lemma per field and update. -/

namespace Sys2Proof.Machine

@[simp] theorem scalarSeed_S (v : Word) (s : State) : (scalarSeed v s).S = scalarWords v := rfl
@[simp] theorem scalarSeed_index (v : Word) (s : State) : (scalarSeed v s).index = 0#9 := rfl
@[simp] theorem scalarSeed_seeded (v : Word) (s : State) : (scalarSeed v s).seeded = true := rfl
@[simp] theorem scalarSeed_fault (v : Word) (s : State) : (scalarSeed v s).fault = s.fault := rfl
@[simp] theorem scalarSeed_cause (v : Word) (s : State) : (scalarSeed v s).cause = s.cause := rfl
@[simp] theorem scalarSeed_twists (v : Word) (s : State) : (scalarSeed v s).twists = s.twists := rfl
@[simp] theorem scalarSeed_input (v : Word) (s : State) : (scalarSeed v s).input = s.input := rfl
@[simp] theorem scalarSeed_results (v : Word) (s : State) : (scalarSeed v s).results = s.results := rfl
@[simp] theorem scalarSeed_epoch (v : Word) (s : State) : (scalarSeed v s).epoch = s.epoch := rfl
@[simp] theorem scalarSeed_config (v : Word) (s : State) : (scalarSeed v s).config = s.config := rfl

@[simp] theorem arraySeed_S (keys : List Word) (s : State) : (arraySeed keys s).S = arrayWords keys := rfl
@[simp] theorem arraySeed_index (keys : List Word) (s : State) : (arraySeed keys s).index = 0#9 := rfl
@[simp] theorem arraySeed_seeded (keys : List Word) (s : State) : (arraySeed keys s).seeded = true := rfl
@[simp] theorem arraySeed_fault (keys : List Word) (s : State) : (arraySeed keys s).fault = s.fault := rfl
@[simp] theorem arraySeed_cause (keys : List Word) (s : State) : (arraySeed keys s).cause = s.cause := rfl
@[simp] theorem arraySeed_twists (keys : List Word) (s : State) : (arraySeed keys s).twists = s.twists := rfl
@[simp] theorem arraySeed_input (keys : List Word) (s : State) : (arraySeed keys s).input = s.input := rfl
@[simp] theorem arraySeed_results (keys : List Word) (s : State) : (arraySeed keys s).results = s.results := rfl
@[simp] theorem arraySeed_epoch (keys : List Word) (s : State) : (arraySeed keys s).epoch = s.epoch := rfl
@[simp] theorem arraySeed_config (keys : List Word) (s : State) : (arraySeed keys s).config = s.config := rfl

@[simp] theorem twist_S (s : State) : (twist s).S = twistWords s.S := rfl
@[simp] theorem twist_index (s : State) : (twist s).index = s.index := rfl
@[simp] theorem twist_seeded (s : State) : (twist s).seeded = s.seeded := rfl
@[simp] theorem twist_fault (s : State) : (twist s).fault = s.fault := rfl
@[simp] theorem twist_cause (s : State) : (twist s).cause = s.cause := rfl
@[simp] theorem twist_twists (s : State) : (twist s).twists = s.twists + 1 := rfl
@[simp] theorem twist_input (s : State) : (twist s).input = s.input := rfl
@[simp] theorem twist_results (s : State) : (twist s).results = s.results := rfl
@[simp] theorem twist_epoch (s : State) : (twist s).epoch = s.epoch := rfl
@[simp] theorem twist_config (s : State) : (twist s).config = s.config := rfl

@[simp] theorem advance_S (s : State) : (advance s).S = s.S := rfl
@[simp] theorem advance_index (s : State) : (advance s).index = s.index + 1#9 := rfl
@[simp] theorem advance_seeded (s : State) : (advance s).seeded = s.seeded := rfl
@[simp] theorem advance_fault (s : State) : (advance s).fault = s.fault := rfl
@[simp] theorem advance_cause (s : State) : (advance s).cause = s.cause := rfl
@[simp] theorem advance_twists (s : State) : (advance s).twists = s.twists := rfl
@[simp] theorem advance_input (s : State) : (advance s).input = s.input := rfl
@[simp] theorem advance_results (s : State) : (advance s).results = s.results := rfl
@[simp] theorem advance_epoch (s : State) : (advance s).epoch = s.epoch := rfl
@[simp] theorem advance_config (s : State) : (advance s).config = s.config := rfl

@[simp] theorem emit_S (v : Word) (s : State) : (emit v s).S = s.S := rfl
@[simp] theorem emit_index (v : Word) (s : State) : (emit v s).index = s.index := rfl
@[simp] theorem emit_seeded (v : Word) (s : State) : (emit v s).seeded = s.seeded := rfl
@[simp] theorem emit_fault (v : Word) (s : State) : (emit v s).fault = s.fault := rfl
@[simp] theorem emit_cause (v : Word) (s : State) : (emit v s).cause = s.cause := rfl
@[simp] theorem emit_twists (v : Word) (s : State) : (emit v s).twists = s.twists := rfl
@[simp] theorem emit_input (v : Word) (s : State) : (emit v s).input = s.input := rfl
@[simp] theorem emit_results (v : Word) (s : State) : (emit v s).results = s.results ++ [v] := rfl
@[simp] theorem emit_epoch (v : Word) (s : State) : (emit v s).epoch = s.epoch := rfl
@[simp] theorem emit_config (v : Word) (s : State) : (emit v s).config = s.config := rfl

@[simp] theorem raiseFault_S (c : FaultCause) (s : State) : (raiseFault c s).S = s.S := rfl
@[simp] theorem raiseFault_index (c : FaultCause) (s : State) : (raiseFault c s).index = s.index := rfl
@[simp] theorem raiseFault_seeded (c : FaultCause) (s : State) : (raiseFault c s).seeded = s.seeded := rfl
@[simp] theorem raiseFault_fault (c : FaultCause) (s : State) : (raiseFault c s).fault = true := rfl
@[simp] theorem raiseFault_cause (c : FaultCause) (s : State) : (raiseFault c s).cause = causeCode c := rfl
@[simp] theorem raiseFault_twists (c : FaultCause) (s : State) : (raiseFault c s).twists = s.twists := rfl
@[simp] theorem raiseFault_input (c : FaultCause) (s : State) : (raiseFault c s).input = s.input := rfl
@[simp] theorem raiseFault_results (c : FaultCause) (s : State) : (raiseFault c s).results = s.results := rfl
@[simp] theorem raiseFault_epoch (c : FaultCause) (s : State) : (raiseFault c s).epoch = s.epoch := rfl
@[simp] theorem raiseFault_config (c : FaultCause) (s : State) : (raiseFault c s).config = s.config := rfl

@[simp] theorem takeInput_S (rest : List HostInput) (s : State) : (takeInput rest s).S = s.S := rfl
@[simp] theorem takeInput_index (rest : List HostInput) (s : State) : (takeInput rest s).index = s.index := rfl
@[simp] theorem takeInput_seeded (rest : List HostInput) (s : State) : (takeInput rest s).seeded = s.seeded := rfl
@[simp] theorem takeInput_fault (rest : List HostInput) (s : State) : (takeInput rest s).fault = s.fault := rfl
@[simp] theorem takeInput_cause (rest : List HostInput) (s : State) : (takeInput rest s).cause = s.cause := rfl
@[simp] theorem takeInput_twists (rest : List HostInput) (s : State) : (takeInput rest s).twists = s.twists := rfl
@[simp] theorem takeInput_input (rest : List HostInput) (s : State) : (takeInput rest s).input = rest := rfl
@[simp] theorem takeInput_results (rest : List HostInput) (s : State) : (takeInput rest s).results = s.results := rfl
@[simp] theorem takeInput_epoch (rest : List HostInput) (s : State) : (takeInput rest s).epoch = s.epoch := rfl
@[simp] theorem takeInput_config (rest : List HostInput) (s : State) : (takeInput rest s).config = s.config := rfl

@[simp] theorem sendNext_S (words : List HostInput) (s : State) : (sendNext words s).S = s.S := rfl
@[simp] theorem sendNext_index (words : List HostInput) (s : State) : (sendNext words s).index = s.index := rfl
@[simp] theorem sendNext_seeded (words : List HostInput) (s : State) : (sendNext words s).seeded = s.seeded := rfl
@[simp] theorem sendNext_fault (words : List HostInput) (s : State) : (sendNext words s).fault = s.fault := rfl
@[simp] theorem sendNext_cause (words : List HostInput) (s : State) : (sendNext words s).cause = s.cause := rfl
@[simp] theorem sendNext_twists (words : List HostInput) (s : State) : (sendNext words s).twists = s.twists := rfl
@[simp] theorem sendNext_input (words : List HostInput) (s : State) : (sendNext words s).input = words ++ s.input := rfl
@[simp] theorem sendNext_results (words : List HostInput) (s : State) : (sendNext words s).results = s.results := rfl
@[simp] theorem sendNext_epoch (words : List HostInput) (s : State) : (sendNext words s).epoch = s.epoch := rfl
@[simp] theorem sendNext_config (words : List HostInput) (s : State) : (sendNext words s).config = s.config := rfl

@[simp] theorem applyReset_S (rest : List HostInput) (s : State) : (applyReset rest s).S = unspecifiedArray (s.epoch + 1) := rfl
@[simp] theorem applyReset_index (rest : List HostInput) (s : State) : (applyReset rest s).index = Config.resetIndex (s.epoch + 1) := rfl
@[simp] theorem applyReset_seeded (rest : List HostInput) (s : State) : (applyReset rest s).seeded = false := rfl
@[simp] theorem applyReset_fault (rest : List HostInput) (s : State) : (applyReset rest s).fault = false := rfl
@[simp] theorem applyReset_cause (rest : List HostInput) (s : State) : (applyReset rest s).cause = 0#4 := rfl
@[simp] theorem applyReset_twists (rest : List HostInput) (s : State) : (applyReset rest s).twists = 0 := rfl
@[simp] theorem applyReset_input (rest : List HostInput) (s : State) : (applyReset rest s).input = rest := rfl
@[simp] theorem applyReset_results (rest : List HostInput) (s : State) : (applyReset rest s).results = s.results := rfl
@[simp] theorem applyReset_epoch (rest : List HostInput) (s : State) : (applyReset rest s).epoch = s.epoch + 1 := rfl
@[simp] theorem applyReset_config (rest : List HostInput) (s : State) : (applyReset rest s).config = s.config := rfl

end Sys2Proof.Machine
end

