-- ==== Sys2Proof/Laws/Ops.lean ====
section
/-! SUPPORT. What each shared operation can do, said once, for the proofs to cite. -/

namespace Sys2Proof.Machine

/-! ### Service -/

@[simp] theorem serve_inService (f : State → State) (s : State) (h : s.fault = false) : serve f s = .next (f s) := by
  simp [serve, h]

@[simp] theorem serve_faulted (f : State → State) (s : State) (h : s.fault = true) : serve f s = .next s := by
  simp [serve, h]

/-- What a command does to an engine in service (R67). -/
def effect : Instr → State → State
  | .seed v => scalarSeed v
  | .seedArray keys => fun s =>
    match checkKeys s.config keys with
    | .empty => raiseFault .emptyKeys s
    | .overflow => raiseFault .keyOverflow s
    | .accepted => arraySeed keys s
  | .nextU64 => drawAndEmit convertU64
  | .nextI63 => drawAndEmit convertI63
  | .nextF64A => drawAndEmit convertF64A
  | .nextF64B => drawAndEmit convertF64B
  | .nextF64C => drawAndEmit convertF64C

/-- Every arm of `exec` is `serve` of its command's effect. -/
theorem exec_eq_serve (i : Instr) (s : State) : exec i s = serve (effect i) s := by cases i <;> rfl

/-! ### The key check -/

theorem checkKeys_eq_empty (config : Config) (keys : List Word) :
    checkKeys config keys = .empty ↔ keys = [] := by
  unfold checkKeys
  split
  · simpa using ‹keys.length = 0›
  · split <;> simp_all

theorem checkKeys_eq_overflow (config : Config) (keys : List Word) :
    checkKeys config keys = .overflow ↔ keys ≠ [] ∧ config.keyMax < keys.length := by
  unfold checkKeys
  split
  · simp_all
  · split <;> simp_all

theorem checkKeys_eq_accepted (config : Config) (keys : List Word) :
    checkKeys config keys = .accepted ↔ keys ≠ [] ∧ keys.length ≤ config.keyMax := by
  unfold checkKeys
  split
  · simp_all
  · split <;> simp_all

/-! ### Draw -/

theorem ensureSeeded_of_seeded (s : State) (h : s.seeded = true) : ensureSeeded s = s := by simp [ensureSeeded, h]

theorem ensureSeeded_of_unseeded (s : State) (h : s.seeded = false) :
    ensureSeeded s = scalarSeed defaultSeed s := by simp [ensureSeeded, h]

theorem refill_exhausted (s : State) (h : s.Exhausted) : refill s = { twist s with index := 0#9 } := by
  have h' : s.index = 0#9 ∨ 312 ≤ s.index.toNat := h.imp (fun h => BitVec.eq_of_toNat_eq (by simpa using h)) id
  simp [refill, h']

theorem refill_within (s : State) (h : ¬ s.Exhausted) : refill s = s := by
  have h' : ¬ (s.index = 0#9 ∨ 312 ≤ s.index.toNat) := fun c => h (c.imp (fun h => by simp [h]) id)
  simp [refill, h']

/-! ### The cursor of array seeding -/

@[simp] theorem Cursor.update_inside (i : Nat) (p w w' : Word) (b a : List Word) (f : Word → Word → Word) :
    Cursor.update ⟨i, p :: b, w :: w' :: a⟩ f = ⟨i + 1, f p w :: p :: b, w' :: a⟩ := rfl

@[simp] theorem Cursor.update_last (i : Nat) (p w : Word) (b : List Word) (f : Word → Word → Word) :
    Cursor.update ⟨i, p :: b, [w]⟩ f = ⟨1, [f p w], (f p w :: p :: b).reverse.tail⟩ := rfl

/-! ### The state array of the pseudocode -/

theorem readWord_eq_getElem (S : StateArray) (i : Nat) (h : i < 312) : readWord S i = S[i] := by
  simp [readWord, List.getD_eq_getElem?_getD, h]

theorem readWord_writeWord_same (S : StateArray) (i : Nat) (w : Word) (h : i < 312) :
    readWord (writeWord S i w) i = w := by
  rw [readWord_eq_getElem _ _ h]
  simp [writeWord]

theorem readWord_writeWord_other (S : StateArray) (i k : Nat) (w : Word) (hk : k < 312) (hne : i ≠ k) :
    readWord (writeWord S i w) k = readWord S k := by
  rw [readWord_eq_getElem _ _ hk, readWord_eq_getElem _ _ hk]
  simp [writeWord, hne]

/-! ### One step -/

/-- A step that answers a next state ran a whole command, or answered without one. -/
theorem step_cases {s t : State} (h : step s = .next t) :
    (∃ i u, fetch s = .run i u ∧ exec i u = .next t) ∨ fetch s = .done t := by
  unfold step at h
  split at h
  · exact .inl ⟨_, _, ‹_›, h⟩
  · exact .inr (by rw [‹fetch s = _›]; injection h with h; rw [h])
  · cases h

/-- The command a step runs is the one decoded off the input, run with its words taken. -/
theorem fetch_run {s u : State} {i : Instr} (h : fetch s = .run i u) :
    s.fault = false ∧ ∃ rest, decode s.input = .ok (i, rest) ∧ u = takeInput rest s := by
  unfold fetch at h
  split at h
  · unfold fetchFaulted at h
    split at h <;> cases h
  · unfold fetchReady at h
    split at h <;> try cases h
    exact ⟨by simpa using ‹¬ s.fault = true›, _, ‹_›, rfl⟩

/-- Every way a step can be done with no command run. -/
theorem fetch_done {s t : State} (h : fetch s = .done t) :
    t = s ∨
    (s.fault = true ∧ ∃ w rest, s.input = w :: rest ∧ w ≠ .reset ∧ t = takeInput rest s) ∨
    (HostInput.reset ∈ s.input ∧ t = applyReset (afterReset s.input) s) ∨
    (s.fault = false ∧ ∃ cw rest, s.input = .command cw :: rest ∧
      t = raiseFault .illegalCommand (takeInput rest s)) := by
  unfold fetch at h
  split at h
  · rename_i hf
    unfold fetchFaulted at h
    split at h <;> injection h with h
    · exact .inl h.symm
    · rename_i rest hi
      exact .inr (.inr (.inl ⟨by simp [hi], by rw [hi]; exact h.symm⟩))
    · rename_i w rest hi
      exact .inr (.inl ⟨hf, _, _, hi, by simp, h.symm⟩)
    · rename_i w rest hi
      exact .inr (.inl ⟨hf, _, _, hi, by simp, h.symm⟩)
  · rename_i hf
    have hf : s.fault = false := by simpa using hf
    unfold fetchReady at h
    split at h <;> first | cases h; done | injection h with h
    · rename_i hd
      obtain ⟨cw, rest, hi⟩ := decode_illegal_front (.inl ⟨_, hd⟩)
      exact .inr (.inr (.inr ⟨hf, cw, rest, hi, by rw [← h, hi]; rfl⟩))
    · rename_i hd
      obtain ⟨cw, rest, hi⟩ := decode_illegal_front (.inr ⟨_, _, hd⟩)
      exact .inr (.inr (.inr ⟨hf, cw, rest, hi, by rw [← h, hi]; rfl⟩))
    · exact .inl h.symm
    · exact .inl h.symm
    · rename_i hd
      exact .inr (.inr (.inl ⟨decode_resetAhead_mem hd, h.symm⟩))

end Sys2Proof.Machine
end

