-- ==== Sys2Proof/Laws/PerInstr.lean ====
section
/-! SUPPORT. Per-instruction laws about commands as syntax: the words of each command's encoding (30_encoding.md R61, R62). -/

namespace Sys2Proof.Laws.OperandWords

/-- A well-formed command is one command word that carries its opcode and its LEN, then exactly the operand words that
word declares (R61, R62). -/
def Statement (i : Instr) : Prop :=
  i.WellFormed → ∃ cw, encode i = .command cw :: (operands i).map .operand ∧ opField cw = opcode i ∧
    (lenField cw).toNat = (if opcode i = 0x02#8 then (operands i).length else 0) ∧
    operandCount cw = (operands i).length

theorem seed (v : Word) : Statement (.seed v) :=
  fun _ => ⟨commandWord 0#24 0x01#8, rfl, by simp [opcode], by simp [opcode], by simp [operandCount, operands]⟩

theorem seedArray (keys : List Word) : Statement (.seedArray keys) := by
  intro h
  have hk : keys.length < 16777216 := Nat.lt_succ_of_le h
  exact ⟨_, rfl, by simp [opcode], by simp [opcode, encodedLen, operands, hk],
    by simp [operandCount, opcode, encodedLen, operands, hk]⟩

theorem nextU64 : Statement .nextU64 := fun _ => ⟨_, rfl, by decide, by decide, by decide⟩

theorem nextI63 : Statement .nextI63 := fun _ => ⟨_, rfl, by decide, by decide, by decide⟩

theorem nextF64A : Statement .nextF64A := fun _ => ⟨_, rfl, by decide, by decide, by decide⟩

theorem nextF64B : Statement .nextF64B := fun _ => ⟨_, rfl, by decide, by decide, by decide⟩

theorem nextF64C : Statement .nextF64C := fun _ => ⟨_, rfl, by decide, by decide, by decide⟩

end Sys2Proof.Laws.OperandWords
end

