-- ==== Sys2Proof/Laws/Pseudocode.lean ====
section
/-! SUPPORT. The pseudocode's fields and checks against the decoder's, said once. -/

namespace Sys2Proof.Machine

/-- OP as the pseudocode reads it and as the decoder does (R61). -/
theorem pseudoOp_eq_iff (cw : CommandWord) (n : Nat) (hn : n < 256) :
    pseudoOp cw = n ↔ opField cw = BitVec.ofNat 8 n := by
  rw [pseudoOp, ← opField_toNat]
  constructor
  · intro h
    exact BitVec.eq_of_toNat_eq (by simp [h]; omega)
  · intro h
    rw [h]
    simp
    omega

/-- LEN as the pseudocode reads it and as the decoder does (R61). -/
theorem pseudoLen_eq (cw : CommandWord) : pseudoLen cw = (lenField cw).toNat := by rw [pseudoLen, lenField_toNat]

theorem pseudoOp_fixed_iff (cw : CommandWord) :
    pseudoOp cw ∈ [0x01, 0x10, 0x11, 0x12, 0x13, 0x14] ↔ isFixedOpcode (opField cw) = true := by
  simp [isFixedOpcode, pseudoOp_eq_iff]
  tauto

/-- A command word is illegal (R65, R152) exactly when the decoder's checks reject it. -/
theorem illegalWord_iff_check (cw : CommandWord) : IllegalWord cw ↔ ∃ e, checkCommand cw = .error e := by
  have hl : pseudoLen cw = 0 ↔ lenField cw = 0#24 := by
    rw [pseudoLen_eq]
    exact ⟨fun h => BitVec.eq_of_toNat_eq (by simpa using h), fun h => by simp [h]⟩
  have hf := pseudoOp_fixed_iff cw
  have h2 := pseudoOp_eq_iff cw 2 (by decide)
  unfold IllegalWord checkCommand
  by_cases hc : opField cw = 2#8
  · have := h2.2 hc
    simp [this, hc]
  · have hn := mt h2.1 hc
    rw [if_neg hc]
    by_cases hfx : isFixedOpcode (opField cw) = true
    · have h3 := hf.2 hfx
      by_cases hz : lenField cw = 0#24
      · have := hl.2 hz
        simp only [hfx, hz, this]
        simp at h3 ⊢
        tauto
      · have := mt hl.1 hz
        simp [hfx, hz, this, hn]
    · have h3 := mt hf.1 hfx
      simp only [hfx]
      simp at h3 ⊢
      tauto

/-- A legal command word passes the decoder's checks and declares the operand words of R62. -/
theorem legalWord_checked {cw : CommandWord} (h : ¬ IllegalWord cw) :
    checkCommand cw = .ok () ∧ declaredOperands cw = operandCount cw := by
  constructor
  · rcases hc : checkCommand cw with e | ⟨⟩
    · exact absurd ((illegalWord_iff_check cw).2 ⟨e, hc⟩) h
    · rfl
  · simp [declaredOperands, operandCount, pseudoOp_eq_iff, pseudoLen_eq]

/-- The state a draw reads its word from: seeded, every field but S, index and twists kept, and the twist, if one ran,
left the cursor at 0 (R120). -/
theorem drawReady_frame (s : State) :
    (drawReady s).seeded = true ∧ (drawReady s).fault = s.fault ∧ (drawReady s).cause = s.cause ∧
    (drawReady s).config = s.config ∧ (drawReady s).results = s.results ∧ (drawReady s).input = s.input ∧
    (drawReady s).epoch = s.epoch ∧
    ((drawReady s).twists = s.twists ∨ ((drawReady s).twists = s.twists + 1 ∧ (drawReady s).index = 0#9)) := by
  unfold drawReady refill ensureSeeded
  split <;> split <;> simp_all

/-- A command word inside another command: where the operand words stopped (R163). -/
theorem takeOperands_inside : ∀ (n : Nat) (inp : List HostInput),
    takeOperands n inp = .error .commandInsideOperands →
    ∃ (ops : List Word) (cw : CommandWord) (rest : List HostInput),
      ops.length < n ∧ inp = ops.map .operand ++ .command cw :: rest
  | 0, inp, h => by cases inp <;> simp [takeOperands] at h
  | n + 1, [], h => by simp [takeOperands] at h
  | n + 1, .reset :: _, h => by simp [takeOperands] at h
  | n + 1, .command c :: r, _ => ⟨[], c, r, by simp, rfl⟩
  | n + 1, .operand w :: inp, h => by
    rw [takeOperands] at h
    split at h
    · cases h
    · rename_i e he
      obtain rfl : e = .commandInsideOperands := by simpa using h
      obtain ⟨ops, c, r, h1, rfl⟩ := takeOperands_inside n inp he
      exact ⟨w :: ops, c, r, by simpa using h1, rfl⟩

/-- A reset after operand words: what is left is what came after it (R181). -/
theorem afterReset_operands (ops : List Word) (rest : List HostInput) :
    afterReset (ops.map .operand ++ .reset :: rest) = rest := by
  induction ops with
  | nil => rfl
  | cons w ws ih => simpa [afterReset] using ih

end Sys2Proof.Machine
end

