-- ==== Sys2Proof/Tests/Slice0.lean ====
section
/-! SUPPORT. Small tests on values of 95_test_vectors.md and the other files of spec/, and for every statement with
hypotheses a theorem whose state and operands meet them. -/

open Sys2Proof Sys2Proof.Machine

namespace Sys2Proof.Tests

/-! ### Helpers -/

/-- The state a step answers, or the state before it where there is none. -/
def after (s : State) : State :=
  match step s with
  | .next t => t
  | .fault _ => s
  | .refused _ => s

/-- An engine right after reset with these words on its input. -/
def sent (words : List HostInput) : State := { State.reset with input := words }

/-- An engine with the all-zero state array, seeded, its cursor at `x`. -/
def drawing (x : BitVec 9) : State :=
  { State.reset with S := Vector.replicate 312 0#64, seeded := true, index := x }

/-- An engine whose KEY_MAX is 2 (95_test_vectors.md P8). -/
def twoKeys : State := { State.reset with config := ⟨2⟩ }

/-! ### Decoding: words written out bit by bit from 30_encoding.md R61 and R64 -/

theorem test_decode_seed :
    decode [.command 0b00000000000000000000000000000001#32, .operand 0xFFFFFFFFFFFFFFFF#64] =
      .ok (.seed 0xFFFFFFFFFFFFFFFF#64, []) := by decide

theorem test_decode_seedArray :
    decode [.command 0b00000000000000000000001000000010#32, .operand 7#64, .operand 9#64, .reset] =
      .ok (.seedArray [7#64, 9#64], [.reset]) := by decide

theorem test_decode_nextU64 :
    decode [.command 0b00000000000000000000000000010000#32] = .ok (.nextU64, []) := by decide

theorem test_decode_nextI63 :
    decode [.command 0b00000000000000000000000000010001#32] = .ok (.nextI63, []) := by decide

theorem test_decode_nextF64A :
    decode [.command 0b00000000000000000000000000010010#32] = .ok (.nextF64A, []) := by decide

theorem test_decode_nextF64B :
    decode [.command 0b00000000000000000000000000010011#32] = .ok (.nextF64B, []) := by decide

theorem test_decode_nextF64C :
    decode [.command 0b00000000000000000000000000010100#32] = .ok (.nextF64C, []) := by decide

/-- NEXT_U64 with LEN = 1 (95_test_vectors.md section 6). -/
theorem test_decode_len_must_be_zero :
    decode [.command 0x00000110#32] = .error (.lenNotZero 0x10#8 1#24) := by decide

/-- The all-zero word is illegal (30_encoding.md R65). -/
theorem test_decode_zero_word : decode [.command 0x00000000#32] = .error (.illegalOpcode 0#8) := by decide

/-- A SEED whose operand has not arrived (30_encoding.md R60). -/
theorem test_decode_incomplete : decode [.command 0x00000001#32] = .error .incomplete := by decide

/-- The image of P2's first command (95_test_vectors.md P2, 30_encoding.md R70). -/
theorem test_encode_seedArray :
    encode (.seedArray [0x12345#64, 0x23456#64, 0x34567#64, 0x45678#64]) =
      [.command 0x00000402#32, .operand 0x12345#64, .operand 0x23456#64, .operand 0x34567#64,
        .operand 0x45678#64] := by decide

/-! ### Assembly text and image (95_test_vectors.md P2, P4) -/

theorem test_assemble_P4 :
    assembleText "SEED -1 ; comment\nNEXT_I63\nNEXT_F64A\nREPEAT 2: NEXT_F64C".toList =
      some [.seed 0xFFFFFFFFFFFFFFFF#64, .nextI63, .nextF64A, .nextF64C, .nextF64C] := by decide +kernel

theorem test_image_P2 :
    ((assembleText "SEED_ARRAY 0x12345, 0x23456\nNEXT_F64B".toList).map fun cmds => (streamOf cmds).map imageWord) =
      some ["00000202".toList, "0000000000012345".toList, "0000000000023456".toList, "00000013".toList] := by
  decide +kernel

theorem test_assemble_rejects_empty_keys : assembleText "SEED_ARRAY".toList = none := by decide +kernel

/-! ### Well-formedness: one check, a term that fails it and a term at its bound -/

theorem test_too_many_keys_ill_formed : ¬ (Instr.seedArray (List.replicate 16777216 0#64)).WellFormed := by
  rw [Instr.WellFormed, List.length_replicate]
  decide

theorem test_most_keys_well_formed : (Instr.seedArray (List.replicate 16777215 0#64)).WellFormed := by
  rw [Instr.WellFormed, List.length_replicate]

/-! ### SEED (95_test_vectors.md 2.1) -/

theorem test_seed_5489_last_word : (scalarWords 5489#64)[311] = 0xC65AE95C45A5D796#64 := by decide +kernel

theorem test_seed_minus_one : (scalarWords 0xFFFFFFFFFFFFFFFF#64)[2] = 0x677779FFDF81C5E5#64 := by decide +kernel

/-! ### SEED_ARRAY (95_test_vectors.md 2.2) -/

theorem test_seedArray_four_keys :
    (arrayWords [0x12345#64, 0x23456#64, 0x34567#64, 0x45678#64])[311] = 0x81A384FB290849CD#64 := by
  decide +kernel

/-- 313 keys: one more than the first loop's least count; S[1] (95_test_vectors.md 2.2, row [0, 1, ..., 312]). -/
theorem test_seedArray_313_keys :
    (arrayWords ((List.range 313).map (BitVec.ofNat 64)))[1] = 0xB84E0550BFEE684E#64 := by decide +kernel

/-! ### Twist (95_test_vectors.md 3.1, 3.4) -/

/-- Position 311 uses new[0]: the hazard of 70_reset_and_hazards.md R183. -/
theorem test_twist_5489_last_word : (twistWords (scalarWords 5489#64))[311] = 0x4094BC3C28993A88#64 := by
  decide +kernel

theorem test_twist_all_ones_last_word :
    (twistWords (Vector.replicate 312 0xFFFFFFFFFFFFFFFF#64))[311] = 0xFFFFFFFFD4B30CF4#64 := by
  decide +kernel

/-! ### The output commands (95_test_vectors.md 5) -/

/-- P1's first result: a never-seeded engine. -/
theorem test_nextU64_never_seeded : (after (sent (encode .nextU64))).results = [0xC96D191CF6F6AEA6#64] := by
  decide +kernel

/-- Temper(1) (95_test_vectors.md section 4), drawn from the middle of a generation. -/
theorem test_nextU64_tempers :
    (after { drawing 5#9 with
      S := Vector.replicate 312 1#64, input := encode .nextU64 }).results = [0x0040002000020801#64] := by
  decide +kernel

theorem test_nextI63_never_seeded : (after (sent (encode .nextI63))).results = [0x64B68C8E7B7B5753#64] := by
  decide +kernel

/-- A logical shift: an arithmetic one would give a negative number (90_conflicts.md C4). -/
theorem test_nextI63_top_bit : convertI63 0x8000000000000000#64 = 0x4000000000000000#64 := by decide

theorem test_nextF64A_half : convertF64A 0x8000000000000000#64 = 0x3FE0000000000001#64 := by decide +kernel

theorem test_nextF64A_one : convertF64A 0xFFFFFFFFFFFFF000#64 = 0x3FF0000000000000#64 := by decide +kernel

theorem test_nextF64B_least : convertF64B 0x0000000000000800#64 = 0x3CA0000000000000#64 := by decide +kernel

theorem test_nextF64B_greatest : convertF64B 0xFFFFFFFFFFFFFFFF#64 = 0x3FEFFFFFFFFFFFFF#64 := by decide +kernel

theorem test_nextF64C_least : convertF64C 0x0000000000000000#64 = 0x3CA0000000000000#64 := by decide +kernel

theorem test_nextF64C_three : convertF64C 0x0000000000001000#64 = 0x3CB8000000000000#64 := by decide +kernel

/-! ### Faults and STATUS (95_test_vectors.md section 6) -/

theorem test_status_illegal_never_seeded :
    status (after (sent [.command 0x00000110#32])) = 0x00000012#32 := by decide +kernel

theorem test_status_empty_keys_never_seeded :
    status (after (sent [.command 0x00000002#32])) = 0x00000022#32 := by decide +kernel

/-- P8's command: three keys where KEY_MAX is 2. -/
theorem test_status_key_overflow :
    status (after { twoKeys with input := encode (.seedArray [1#64, 2#64, 3#64]) }) = 0x00000032#32 := by
  decide +kernel

/-! ### A word of the table runs from reset (the host's two questions, on one row) -/

theorem test_withFetchWord_runs :
    (after (State.reset.withFetchWord 32 0x00000010)).results = [0xC96D191CF6F6AEA6#64] := by decide +kernel

/-! ### Witnesses: for each statement with hypotheses, a state and operands that meet them together, at the edges of
its ranges; clauses of one statement have one witness each. -/

theorem witness_DecodeOfEncode : (Instr.seed 1#64).WellFormed ∧ (Instr.seedArray []).WellFormed ∧
    (Instr.seedArray (List.replicate 16777215 0#64)).WellFormed :=
  ⟨trivial, Nat.zero_le _, test_most_keys_well_formed⟩

theorem witness_DecodedWordsAreTheEncoding :
    decode [.command 0x00000102#32, .operand 3#64] = .ok (.seedArray [3#64], []) := by decide

theorem witness_IllegalWordsAreRejectedByName :
    pseudoOp 0x00000015#32 ∉ [0x01, 0x02, 0x10, 0x11, 0x12, 0x13, 0x14] ∧
    pseudoOp 0x00000000#32 ∉ [0x01, 0x02, 0x10, 0x11, 0x12, 0x13, 0x14] ∧
    (pseudoOp 0x80000014#32 ∈ [0x01, 0x10, 0x11, 0x12, 0x13, 0x14] ∧ pseudoLen 0x80000014#32 ≠ 0) ∧
    (pseudoOp 0x00000101#32 ∈ [0x01, 0x10, 0x11, 0x12, 0x13, 0x14] ∧ pseudoLen 0x00000101#32 ≠ 0) := by decide

theorem witness_StepRunsDecodedCommand :
    (sent [.command 0x00000010#32]).InService ∧
    decode (sent [.command 0x00000010#32]).input = .ok (.nextU64, []) := by decide

theorem witness_StepFollowsExecute_legal :
    (sent [.command 0x00000202#32, .operand 5#64, .operand 6#64]).InService ∧
    (sent [.command 0x00000202#32, .operand 5#64, .operand 6#64]).input =
      .command 0x00000202#32 :: ([5#64, 6#64].map .operand ++ []) ∧
    [5#64, 6#64].length =
      (if IllegalWord 0x00000202#32 then 0 else declaredOperands 0x00000202#32) := by decide

theorem witness_StepFollowsExecute_illegal :
    (sent [.command 0x00000101#32]).InService ∧
    (sent [.command 0x00000101#32]).input = .command 0x00000101#32 :: (([] : List Word).map .operand ++ []) ∧
    ([] : List Word).length =
      (if IllegalWord 0x00000101#32 then 0 else declaredOperands 0x00000101#32) := by decide

theorem witness_StepFollowsExecute_faulted :
    ({ sent [.command 0x00000010#32] with fault := true, cause := 2#4 }).fault = true ∧
    ({ sent [.command 0x00000010#32] with fault := true, cause := 2#4 }).input = .command 0x00000010#32 :: [] := by
  decide

theorem witness_IdleEngineHoldsState : State.reset.input = [] := by decide

theorem witness_PartialCommandWaits :
    (sent [.command 0x00000202#32, .operand 5#64]).InService ∧ ¬ IllegalWord 0x00000202#32 ∧
    (sent [.command 0x00000202#32, .operand 5#64]).input = .command 0x00000202#32 :: [5#64].map .operand ∧
    [5#64].length < declaredOperands 0x00000202#32 := by decide

theorem witness_ResetOnlyBetweenCommands_whole :
    (sent [.command 0x00000010#32, .reset]).InService ∧ Instr.nextU64.WellFormed ∧
    (sent [.command 0x00000010#32, .reset]).input = encode .nextU64 ++ .reset :: [] := by decide

theorem witness_ResetOnlyBetweenCommands_partial :
    (sent [.command 0x00000001#32, .reset]).InService ∧ ¬ IllegalWord 0x00000001#32 ∧
    (sent [.command 0x00000001#32, .reset]).input =
      .command 0x00000001#32 :: (([] : List Word).map .operand ++ .reset :: []) ∧
    ([] : List Word).length < declaredOperands 0x00000001#32 := by decide

theorem witness_ResetRestartsTheEngine :
    (sent [.reset]).input = .reset :: [] ∧ ({ sent [.reset] with fault := true, cause := 2#4 }).input = .reset :: [] := by
  decide

theorem witness_StepKeepsTheInvariant :
    State.reset.Inv ∧ (drawing 312#9).Inv ∧ ∃ t, step State.reset = .next t :=
  ⟨by decide, by decide, State.reset, rfl⟩

theorem witness_StepNeverWritesTheConfiguration : step State.reset = .next State.reset := rfl

theorem witness_SeededClearedOnlyByReset :
    ∃ t, step { drawing 5#9 with input := [.reset] } = .next t ∧ (drawing 5#9).seeded = true ∧ t.seeded = false :=
  ⟨_, rfl, rfl, rfl⟩

theorem witness_StepEmitsAtMostOneWord :
    step State.reset = .next State.reset ∧ ∃ t, step (sent [.command 0x00000010#32]) = .next t :=
  ⟨rfl, _, rfl⟩

theorem witness_TwistRunsOnlyInsideADraw :
    ∃ t, step { drawing 312#9 with input := [.command 0x00000010#32] } = .next t ∧
      t.epoch = (drawing 312#9).epoch ∧ t.twists ≠ (drawing 312#9).twists :=
  ⟨_, rfl, rfl, by decide⟩

theorem witness_UnspecifiedStateDecidesNothing :
    State.reset.seeded = false ∧ step State.reset = .next State.reset ∧
      ∃ t, step (sent [.command 0x00000010#32]) = .next t :=
  ⟨rfl, rfl, _, rfl⟩

theorem witness_IllegalCommandWordFaults :
    ((sent [.command 0x00000000#32]).InService ∧ IllegalWord 0x00000000#32) ∧
    ((sent [.command 0x00000101#32]).InService ∧ IllegalWord 0x00000101#32) ∧
    (sent [.command 0x00000101#32]).input = .command 0x00000101#32 :: [] := by decide

theorem witness_EmptyKeySequenceFaults : State.reset.InService := by decide

theorem witness_TooManyKeysFault :
    twoKeys.InService ∧ [1#64, 2#64, 3#64].length > twoKeys.config.keyMax := by decide

theorem witness_FaultsArePrecise :
    (sent [.command 0x00000000#32]).InService ∧
      ∃ t, step (sent [.command 0x00000000#32]) = .next t ∧ t.fault = true :=
  ⟨by decide, _, rfl, rfl⟩

theorem witness_FaultedEngineDiscards :
    ({ sent [.command 0x00000010#32] with fault := true, cause := 1#4 }).fault = true ∧
    ({ sent [.operand 1#64] with fault := true, cause := 1#4 }).input = .operand 1#64 :: [] ∧
    ∃ t, step { sent [.reset] with fault := true, cause := 1#4 } = .next t ∧ t.fault = false :=
  ⟨by decide, by decide, _, rfl, rfl⟩

theorem witness_SeedLoadsTheRecurrence : State.reset.InService := by decide

theorem witness_SeedMatchesInPlaceLoop : (drawing 312#9).InService := by decide

theorem witness_SeedArrayMatchesInPlaceLoops :
    twoKeys.InService ∧ (1 ≤ [9#64].length ∧ [9#64].length ≤ twoKeys.config.keyMax) ∧
    (1 ≤ [8#64, 9#64].length ∧ [8#64, 9#64].length ≤ twoKeys.config.keyMax) := by decide

theorem witness_SeedArrayDependsOnTheKeysAlone :
    [8#64, 9#64] ≠ [] ∧ twoKeys.InService ∧ [8#64, 9#64].length ≤ twoKeys.config.keyMax := by decide

theorem witness_ArraySeedCursorPositions : (1 ≤ 1 ∧ 1 ≤ 311) ∧ (1 ≤ 311 ∧ 311 ≤ 311) := by decide

theorem witness_NoSeedingLeavesAZeroState :
    State.reset.InService ∧ (∃ t, exec (.seed 0#64) State.reset = .next t) ∧
      ∃ t, exec (.seedArray [0#64]) State.reset = .next t ∧ t.fault = false :=
  ⟨by decide, ⟨_, rfl⟩, _, rfl, rfl⟩

theorem witness_LowBitsOfTheFirstWordNeverMatter :
    (resultConversion .nextF64A).isSome ∧ (drawing 0#9).InService ∧ (drawing 0#9).seeded = true ∧
    (drawing 0#9).Exhausted ∧ (drawing 511#9).Exhausted ∧
    SameEffective (drawing 0#9).S ((drawing 0#9).S.set 0 0x7FFFFFFF#64) := by decide +kernel

theorem witness_TemperingCascade : ∃ y1 y2 y3 : Word,
    y1 = 1#64 ^^^ ((1#64 >>> 29) &&& 0x5555555555555555#64) ∧
    y2 = y1 ^^^ ((y1 <<< 17) &&& 0x71D67FFFEDA60000#64) ∧
    y3 = y2 ^^^ ((y2 <<< 37) &&& 0xFFF7EEE000000000#64) :=
  ⟨_, _, _, rfl, rfl, rfl⟩

theorem witness_DrawFollowsItsSteps :
    (∃ c, resultConversion .nextU64 = some c) ∧ (∃ c, resultConversion .nextI63 = some c) ∧
    (∃ c, resultConversion .nextF64A = some c) ∧ (∃ c, resultConversion .nextF64B = some c) ∧
    (∃ c, resultConversion .nextF64C = some c) ∧ State.reset.InService :=
  ⟨⟨_, rfl⟩, ⟨_, rfl⟩, ⟨_, rfl⟩, ⟨_, rfl⟩, ⟨_, rfl⟩, rfl⟩

theorem witness_DrawInsideAGeneration :
    (∃ c, resultConversion .nextI63 = some c) ∧
    ((drawing 1#9).InService ∧ (drawing 1#9).seeded = true ∧ (drawing 1#9).index.toNat < 312 ∧
      1 ≤ (drawing 1#9).index.toNat) ∧
    ((drawing 311#9).InService ∧ (drawing 311#9).seeded = true ∧ (drawing 311#9).index.toNat < 312 ∧
      1 ≤ (drawing 311#9).index.toNat) :=
  ⟨⟨_, rfl⟩, by decide, by decide⟩

theorem witness_DrawStartsAGeneration :
    (∃ c, resultConversion .nextU64 = some c) ∧
    ((drawing 0#9).InService ∧ (drawing 0#9).seeded = true ∧ (drawing 0#9).Exhausted) ∧
    ((drawing 312#9).InService ∧ (drawing 312#9).seeded = true ∧ (drawing 312#9).Exhausted) ∧
    (drawing 511#9).Exhausted :=
  ⟨⟨_, rfl⟩, by decide, by decide, by decide⟩

theorem witness_NeverSeededDrawIsDefaultSeeded :
    (resultConversion .nextF64C).isSome ∧ State.reset.InService ∧ State.reset.seeded = false := by decide

theorem witness_CommandKindChangesOnlyTheConversion :
    (∃ c, resultConversion .nextF64B = some c) ∧ State.reset.InService := ⟨⟨_, rfl⟩, rfl⟩

theorem witness_I63HalvesTheWord : State.reset.InService := by decide

theorem witness_FloatCornerCases :
    (0x7FF#64 : Word).toNat < 2 ^ 11 ∧ (0xFFF#64 : Word).toNat < 2 ^ 12 ∧
    0xFFFFFFFFFFFFF000 ≤ (0xFFFFFFFFFFFFF000#64 : Word).toNat ∧
    0xFFFFFFFFFFFFF800 ≤ (0xFFFFFFFFFFFFF800#64 : Word).toNat := by decide

theorem witness_TwistSchedule :
    (drawing 0#9).InService ∧ (drawing 0#9).seeded = true ∧ (drawing 0#9).index = 0#9 ∧
    [Instr.nextU64, Instr.nextF64A] ≠ [] ∧
    ∀ i ∈ [Instr.nextU64, Instr.nextF64A], (resultConversion i).isSome := by decide

theorem witness_DrawReadsItsGeneration :
    (drawing 0#9).InService ∧ (drawing 0#9).seeded = true ∧ (drawing 0#9).index = 0#9 ∧
    (∀ j ∈ ([] : List Instr), (resultConversion j).isSome) ∧ ∃ c, resultConversion .nextF64C = some c :=
  ⟨by decide, by decide, by decide, by decide, _, rfl⟩

theorem witness_SeedDefaultChangesNoResult :
    State.reset.InService ∧ State.reset.seeded = false ∧ ∃ t, runCommands [.nextU64, .nextI63] State.reset = .next t :=
  ⟨rfl, rfl, _, rfl⟩

theorem witness_AssembledTextDecodes : assembleText "SEED_DEFAULT".toList = some [.seed 5489#64] := by decide +kernel

theorem witness_AssemblerOperandRanges :
    assembleCommand (.seedArray [0, 18446744073709551615]) =
      some (.seedArray [0x0000000000000000#64, 0xFFFFFFFFFFFFFFFF#64]) := by decide

end Sys2Proof.Tests
end

/-! PROOF. Seeding (40_seeding.md): the walking forms of ScalarSeed and ArraySeed leave what the spec's in-place loops
leave, and what SEED and SEED_ARRAY do on an engine in service. -/

namespace Sys2Proof.Machine

/-! ### The seeding commands on an engine in service (R81, R83) -/

theorem exec_seed_inService (v : Word) (s : State) (h : s.InService) :
    exec (.seed v) s = .next (scalarSeed v s) := by
  rw [exec_eq_serve, serve_inService _ _ h, effect]

theorem exec_seedArray_inService (keys : List Word) (s : State) (h : s.InService) (hne : keys ≠ [])
    (hle : keys.length ≤ s.config.keyMax) : exec (.seedArray keys) s = .next (arraySeed keys s) := by
  have hk : checkKeys s.config keys = .accepted := (checkKeys_eq_accepted _ _).2 ⟨hne, hle⟩
  rw [exec_eq_serve, serve_inService _ _ h]
  simp [effect, hk]

/-! ### The scalar recurrence (R80) -/

/-- Each word of `prev` and its tail is the recurrence of the word before it (R80). -/
theorem scalarTail_getElem (n i : Nat) (prev : Word) (k : Nat) (h : k < n) :
    (prev :: scalarTail n i prev)[k + 1]'(by simp [scalarTail_length, h]) =
      scalarNext ((prev :: scalarTail n i prev)[k]'(by simp [scalarTail_length]; omega)) (i + k) := by
  induction n generalizing i prev k with
  | zero => omega
  | succ n ih =>
    cases k with
    | zero => rfl
    | succ k =>
      have := ih (i + 1) (scalarNext prev i) k (by omega)
      rwa [Nat.add_right_comm, Nat.add_assoc i k 1] at this

theorem scalarWords_zero (v : Word) : (scalarWords v)[0] = v := rfl

theorem scalarWords_succ (v : Word) (i : Nat) (h : i < 311) :
    (scalarWords v)[i + 1] = scalarNext (scalarWords v)[i] (i + 1) := by
  have := scalarTail_getElem 311 1 v i h
  rwa [Nat.add_comm 1 i] at this

/-- Settles O26: the vector is `scalarWords v`, which reads no earlier state. -/
theorem seedLoadsTheRecurrence : Obligations.SeedLoadsTheRecurrence := fun v =>
  ⟨scalarWords v, scalarWords_zero v, scalarWords_succ v, exec_seed_inService v⟩

/-! ### The in-place array as a list split at a position (R13) -/

@[simp] theorem writeWord_toList (S : StateArray) (i : Nat) (w : Word) :
    (writeWord S i w).toList = S.toList.set i w := by
  rcases S with ⟨⟨l⟩, hl⟩
  simp [writeWord]

/-- Around a position: the word just below it and the word at it, once the array is split there. -/
theorem readWord_of_split {S : StateArray} {b a : List Word} {p w : Word}
    (hS : S.toList = (p :: b).reverse ++ w :: a) :
    readWord S b.length = p ∧ readWord S (b.length + 1) = w := by
  simp [readWord, hS]

theorem writeWord_of_split {S : StateArray} {b a : List Word} {w : Word} (x : Word)
    (hS : S.toList = b.reverse ++ w :: a) :
    (writeWord S b.length x).toList = (x :: b).reverse ++ a := by
  simp [hS]

theorem writeWord_zero_toList (S : StateArray) (x : Word) :
    (writeWord S 0 x).toList = x :: S.toList.tail := by
  obtain ⟨w, rest, hS⟩ := List.exists_cons_of_length_eq_add_one S.length_toList
  simp [hS]

/-! ### ScalarSeed: the in-place loop is the walk (R80) -/

theorem inPlaceScalarLoop_toList (n : Nat) (S : StateArray) (b rest : List Word) (p : Word)
    (hS : S.toList = (p :: b).reverse ++ rest) (hn : rest.length = n) :
    (inPlaceScalarLoop n (b.length + 1) S).toList = (p :: b).reverse ++ scalarTail n (b.length + 1) p := by
  induction n generalizing S b rest p with
  | zero => simpa [inPlaceScalarLoop, scalarTail, List.length_eq_zero_iff.1 hn] using hS
  | succ n ih =>
    obtain ⟨w, rest, rfl⟩ := List.exists_cons_of_length_eq_add_one hn
    have hp : readWord S b.length = p := (readWord_of_split hS).1
    have hw := writeWord_of_split (scalarNext p (b.length + 1)) hS
    have := ih _ (p :: b) rest _ hw (by simpa using hn)
    simpa [inPlaceScalarLoop, scalarTail, hp, scalarNext, fold62, seedMult] using this

/-- ScalarSeed's in-place loop leaves the walked vector, whatever the array held before (R80). -/
theorem inPlaceScalarSeed_eq (v : Word) (S : StateArray) : inPlaceScalarSeed v S = scalarWords v := by
  have h := inPlaceScalarLoop_toList 311 (writeWord S 0 v) [] S.toList.tail v (writeWord_zero_toList S v) (by simp)
  exact Vector.toList_inj.1 h

/-! ### ArraySeed: the in-place loops are the walk (R82) -/

/-- The cursor stands at position `i` of the array `S`: the spec's state cursor is always in 1..311 (R42, R84). -/
structure Cursor.StandsAt (c : Cursor) (S : StateArray) (i : Nat) : Prop where
  words : S.toList = c.words
  position : c.i = i
  below_length : c.below.length = i
  pos : 1 ≤ i
  lt : i < 312

/-- One step of either in-place loop: S[i] <- f S[i-1] S[i]; i <- i + 1; then the wrap test (R82). -/
def inPlaceUpdate (f : Word → Word → Word) (S : StateArray) (i : Nat) : StateArray × Nat :=
  wrapCopy (writeWord S i (f (readWord S (i - 1)) (readWord S i))) (i + 1)

theorem inPlaceKeyLoop_succ (keys : List Word) (n i j : Nat) (S : StateArray) :
    inPlaceKeyLoop keys (n + 1) i j S =
      inPlaceKeyLoop keys n (inPlaceUpdate (keyMix (keys.getD j 0#64) j) S i).2
        (if j + 1 = keys.length then 0 else j + 1) (inPlaceUpdate (keyMix (keys.getD j 0#64) j) S i).1 := rfl

theorem inPlaceCloseLoop_succ (n i : Nat) (S : StateArray) :
    inPlaceCloseLoop (n + 1) i S =
      inPlaceCloseLoop n (inPlaceUpdate (closeMix i) S i).2 (inPlaceUpdate (closeMix i) S i).1 := rfl

/-- A cursor in the array has a word below it and a word at it. -/
theorem Cursor.StandsAt.split {c : Cursor} {S : StateArray} {i : Nat} (h : c.StandsAt S i) :
    ∃ b p w a, c = ⟨b.length + 1, p :: b, w :: a⟩ ∧ i = b.length + 1 ∧ b.length + a.length = 310 := by
  obtain ⟨ci, below, above⟩ := c
  obtain ⟨hwords, hci, hbelow, hpos, hlt⟩ := h
  dsimp only at hci hbelow
  have hlen : below.length + above.length = 312 := by
    simpa [Cursor.words] using (congrArg List.length hwords).symm
  obtain ⟨p, b, rfl⟩ := List.exists_cons_of_ne_nil (List.ne_nil_of_length_pos (by omega : 0 < below.length))
  obtain ⟨w, a, rfl⟩ := List.exists_cons_of_ne_nil (List.ne_nil_of_length_pos (by omega : 0 < above.length))
  simp only [List.length_cons] at hbelow hlen
  exact ⟨b, p, w, a, by rw [hci, hbelow], hbelow.symm, by omega⟩

/-- The last write of ArraySeed under a cursor that stands on the array (R82). -/
theorem Cursor.StandsAt.writeWord_zero {c : Cursor} {S : StateArray} {i : Nat} (h : c.StandsAt S i) (x : Word) :
    (writeWord S 0 x).toList = x :: c.words.tail := by
  rw [writeWord_zero_toList, h.words]

/-- The in-place step and the walking step keep the cursor on the array, at the wrap as well. -/
theorem Cursor.StandsAt.update {c : Cursor} {S : StateArray} {i : Nat} (h : c.StandsAt S i)
    (f : Word → Word → Word) :
    (c.update f).StandsAt (inPlaceUpdate f S i).1 (inPlaceUpdate f S i).2 := by
  obtain ⟨b, p, w, a, rfl, rfl, hlen⟩ := h.split
  have hS : S.toList = (p :: b).reverse ++ w :: a := h.words
  obtain ⟨hp, hw⟩ := readWord_of_split hS
  have hwrite : (writeWord S (b.length + 1) (f p w)).toList = (f p w :: p :: b).reverse ++ a :=
    writeWord_of_split (b := p :: b) (f p w) hS
  simp only [inPlaceUpdate, Nat.add_sub_cancel, hp, hw]
  cases a with
  | nil =>
    have hb : b.length = 310 := by simpa using hlen
    have hlast : readWord (writeWord S (b.length + 1) (f p w)) 311 = f p w := by
      rw [hb]
      exact readWord_writeWord_same _ _ _ (by decide)
    rw [Cursor.update_last, wrapCopy, if_pos (by omega), hlast]
    have hcopy := writeWord_zero_toList (writeWord S (b.length + 1) (f p w)) (f p w)
    rw [hwrite, List.append_nil] at hcopy
    exact ⟨hcopy, rfl, rfl, le_rfl, (by decide : 1 < 312)⟩
  | cons w' a =>
    have hne : b.length + 1 + 1 ≠ 312 := by simp at hlen; omega
    rw [Cursor.update_inside, wrapCopy, if_neg hne]
    exact ⟨hwrite, rfl, by simp, by simp, by simp at hlen ⊢; omega⟩

theorem keyLoop_standsAt (keys : List Word) (n j : Nat) {c : Cursor} {S : StateArray} {i : Nat}
    (h : c.StandsAt S i) :
    (keyLoop keys n j c).StandsAt (inPlaceKeyLoop keys n i j S).1 (inPlaceKeyLoop keys n i j S).2 := by
  induction n generalizing j c S i with
  | zero => exact h
  | succ n ih =>
    rw [inPlaceKeyLoop_succ]
    exact ih _ (h.update _)

theorem closeLoop_standsAt (n : Nat) {c : Cursor} {S : StateArray} {i : Nat} (h : c.StandsAt S i) :
    (closeLoop n c).StandsAt (inPlaceCloseLoop n i S).1 (inPlaceCloseLoop n i S).2 := by
  induction n generalizing c S i with
  | zero => exact h
  | succ n ih =>
    rw [inPlaceCloseLoop_succ, closeLoop, h.position]
    exact ih (h.update _)

theorem bootCursor_standsAt : bootCursor.StandsAt (scalarWords bootSeed) 1 :=
  ⟨rfl, rfl, rfl, le_rfl, by decide⟩

/-- ArraySeed's in-place loops leave the walked vector, whatever the array held before (R82). -/
theorem inPlaceArraySeed_eq (keys : List Word) (S : StateArray) : inPlaceArraySeed keys S = arrayWords keys := by
  have hboot : bootCursor.StandsAt (inPlaceScalarSeed bootSeed S) 1 := by
    rw [inPlaceScalarSeed_eq]
    exact bootCursor_standsAt
  have hloops := closeLoop_standsAt 311 (keyLoop_standsAt keys (max 312 keys.length) 0 hboot)
  exact Vector.toList_inj.1 (hloops.writeWord_zero arrFinal)

/-- Settles O28: step for step the model's cursor stands where the in-place loops do, on the same words. -/
theorem seedArrayMatchesInPlaceLoops : Obligations.SeedArrayMatchesInPlaceLoops := by
  intro keys s hs hpos hle
  rw [exec_seedArray_inService keys s hs (List.ne_nil_of_length_pos hpos) hle, inPlaceArraySeed_eq]
  rfl

end Sys2Proof.Machine

/-! PROOF. Twist (41_twist.md): the in-place loop of R100 and the model's two phases both leave the closed form of R102,
which one state vector alone meets. -/

namespace Sys2Proof.Machine

/-! ### The closed form (R102) -/

/-- `new` is the closed form of a twist of `old`, range by range (R102). -/
structure IsTwistOf (new old : StateArray) : Prop where
  low : ∀ (k : Nat) (_ : k < 156), new[k] = old[k + 156] ^^^ mix old[k] old[k + 1]
  high : ∀ (k : Nat) (_ : k < 155), new[k + 156] = new[k] ^^^ mix old[k + 156] old[k + 157]
  top : new[311] = new[155] ^^^ mix old[311] new[0]

theorem IsTwistOf.unique {new new' old : StateArray} (h : IsTwistOf new old) (h' : IsTwistOf new' old) : new = new' := by
  have hlow (k : Nat) (hk : k < 156) : new[k] = new'[k] := by rw [h.low k hk, h'.low k hk]
  ext k hk
  obtain hk | hk | rfl : k < 156 ∨ (156 ≤ k ∧ k < 311) ∨ k = 311 := by omega
  · rw [hlow k hk]
  · obtain ⟨j, rfl⟩ := Nat.exists_eq_add_of_le' hk.1
    rw [h.high j (by omega), h'.high j (by omega), hlow j (by omega)]
  · rw [h.top, h'.top, hlow 155 (by decide), hlow 0 (by decide)]

/-! ### The in-place loop (R100) -/

/-- The loop writes only the positions it walks over. -/
theorem readWord_inPlaceTwistLoop_outside (n i k : Nat) (S : StateArray) (hk : k < 312) (hout : k < i ∨ i + n ≤ k) :
    readWord (inPlaceTwistLoop n i S) k = readWord S k := by
  induction n generalizing i S with
  | zero => rfl
  | succ n ih =>
    rw [inPlaceTwistLoop, ih _ _ (by omega)]
    exact readWord_writeWord_other _ _ _ _ hk (by omega)

/-- The word the loop leaves where it walks: the two words it mixes there are not yet written, nor is the third one below
position 156; from 156 on the third is a word the loop itself has left 156 positions below. -/
theorem readWord_inPlaceTwistLoop_walked (n i k : Nat) (S : StateArray) (hk : i ≤ k ∧ k < i + n) (hend : k < 311) :
    readWord (inPlaceTwistLoop n i S) k =
      (if k < 156 then readWord S (k + 156) else readWord (inPlaceTwistLoop n i S) (k - 156)) ^^^
        mix (readWord S k) (readWord S (k + 1)) := by
  induction n generalizing i S with
  | zero => omega
  | succ n ih =>
    rw [inPlaceTwistLoop]
    obtain rfl | hne := Decidable.eq_or_ne i k
    · rw [readWord_inPlaceTwistLoop_outside _ _ _ _ (by omega) (by omega), readWord_writeWord_same _ _ _ (by omega)]
      split
      · rfl
      · rw [readWord_inPlaceTwistLoop_outside _ _ _ _ (by omega) (by omega),
          readWord_writeWord_other _ _ _ _ (by omega) (by omega), Nat.add_sub_add_right i 156 156]
    · have hkeep (j : Nat) (hj : j < 312) (hij : i < j) (w : Word) : readWord (writeWord S i w) j = readWord S j :=
        readWord_writeWord_other _ _ _ _ hj (by omega)
      rw [ih _ _ (by omega), hkeep k (by omega) (by omega), hkeep (k + 1) (by omega) (by omega)]
      split
      · rw [hkeep (k + 156) (by omega) (by omega)]
      · rfl

/-- The last write of R100 is the one to position 311. -/
theorem readWord_inPlaceTwist_below (S : StateArray) (k : Nat) (hk : k < 311) :
    readWord (inPlaceTwist S) k = readWord (inPlaceTwistLoop 311 0 S) k :=
  readWord_writeWord_other _ _ _ _ (by omega) (by omega)

theorem inPlaceTwist_isTwistOf (S : StateArray) : IsTwistOf (inPlaceTwist S) S where
  low k hk := by
    simp only [← readWord_eq_getElem]
    rw [readWord_inPlaceTwist_below _ _ (by omega),
      readWord_inPlaceTwistLoop_walked _ _ _ _ (by omega) (by omega), if_pos hk]
  high k hk := by
    simp only [← readWord_eq_getElem]
    rw [readWord_inPlaceTwist_below _ _ (by omega), readWord_inPlaceTwist_below _ _ (by omega),
      readWord_inPlaceTwistLoop_walked _ _ _ _ (by omega) (by omega), if_neg (by omega), Nat.add_sub_cancel]
  top := by
    simp only [← readWord_eq_getElem]
    rw [readWord_inPlaceTwist_below S 155 (by decide), readWord_inPlaceTwist_below S 0 (by decide), inPlaceTwist,
      readWord_writeWord_same _ _ _ (by decide),
      readWord_inPlaceTwistLoop_outside 311 0 311 S (by decide) (.inr (by decide))]

/-! ### The model's two phases (R183) -/

theorem twistMixes_getElem (S : StateArray) (k : Nat) (hk : k < 311) :
    (twistMixes S)[k]'(by simpa [twistMixes_length]) = mix S[k] S[k + 1] := by
  simp [twistMixes]

theorem twistLow_getElem (S : StateArray) (k : Nat) (hk : k < 156) :
    (twistLow S)[k]'(by simpa [twistLow_length]) = S[k + 156] ^^^ mix S[k] S[k + 1] := by
  simp [twistLow, twistMixes_getElem S k (by omega), Nat.add_comm]

theorem twistHigh_getElem (S : StateArray) (k : Nat) (hk : k < 155) :
    (twistHigh S)[k]'(by simpa [twistHigh_length]) =
      (twistLow S)[k]'(by simp [twistLow_length]; omega) ^^^ mix S[k + 156] S[k + 157] := by
  have hmix : (twistMixes S)[k + 156]'(by rw [twistMixes_length]; omega) = mix S[k + 156] S[k + 157] :=
    twistMixes_getElem S (k + 156) (by omega)
  simp [twistHigh, Nat.add_comm, hmix]

theorem twistWords_getElem_low (S : StateArray) (k : Nat) (hk : k < 156) :
    (twistWords S)[k] = (twistLow S)[k]'(by simpa [twistLow_length]) := by
  simp [twistWords, twistLow_length, hk, List.getElem_append_left]

theorem twistWords_isTwistOf (S : StateArray) : IsTwistOf (twistWords S) S where
  low k hk := by rw [twistWords_getElem_low S k hk, twistLow_getElem S k hk]
  high k hk := by
    rw [twistWords_getElem_low S k (by omega), ← twistHigh_getElem S k hk]
    simp [twistWords, twistLow_length, twistHigh_length, hk, List.getElem_append_right]
  top := by
    rw [twistWords_getElem_low S 155 (by decide), twistWords_getElem_low S 0 (by decide)]
    simp [twistWords, twistLow_length, twistHigh_length, twistTop]

theorem twistWords_eq_inPlaceTwist (S : StateArray) : twistWords S = inPlaceTwist S :=
  (twistWords_isTwistOf S).unique (inPlaceTwist_isTwistOf S)

/-- Settles O32: the two phases and the in-place loop leave the one vector that meets the closed form. -/
theorem twistMatchesInPlaceLoop : Obligations.TwistMatchesInPlaceLoop := by
  intro s
  rw [twist, twistWords_eq_inPlaceTwist]

end Sys2Proof.Machine

/-! PROOF. The float conversions (42_output.md R125 to R127): rounding a product to binary64 once, as R14 has it, gives
the bits of the integer procedures. -/

namespace Sys2Proof.Machine

/-! ### Rounding (R14) -/

theorem log2_mul_two_pow {m : Nat} (c : Nat) (hm : m ≠ 0) : (m * 2 ^ c).log2 = m.log2 + c := by
  rw [Nat.log2_eq_iff (by positivity), pow_add, Nat.add_right_comm, pow_add]
  exact ⟨Nat.mul_le_mul_right _ (Nat.log2_self_le hm), Nat.mul_lt_mul_of_pos_right Nat.lt_log2_self (by positivity)⟩

/-- A common power of two does not change which integer is nearest. -/
theorem roundShift_mul_two_pow (m sh c : Nat) : roundShift (m * 2 ^ c) (sh + c) = roundShift m sh := by
  have hc : 0 < 2 ^ c := by positivity
  have hr : 2 * (m % 2 ^ sh * 2 ^ c) = 2 * (m % 2 ^ sh) * 2 ^ c := by ring
  simp only [roundShift, pow_add, Nat.mul_div_mul_right _ _ hc, Nat.mul_mod_mul_right, hr,
    Nat.mul_lt_mul_right hc, Nat.mul_left_inj hc.ne', gt_iff_lt]

theorem roundShift_zero (m : Nat) : roundShift m 0 = m := by simp [roundShift, Nat.mod_one]

/-- Rounding to 53 significant bits keeps the leading bit in place, or carries to the next power of two. -/
theorem roundShift_bounds {m sh : Nat} (hlog : m.log2 = sh + 52) :
    2 ^ 52 ≤ roundShift m sh ∧ roundShift m sh ≤ 2 ^ 53 := by
  have hm : m ≠ 0 := by rintro rfl; simp at hlog
  obtain ⟨hlow, hhigh⟩ := (Nat.log2_eq_iff hm).1 hlog
  rw [Nat.add_comm sh 52, pow_add] at hlow
  rw [Nat.add_assoc, Nat.add_comm sh, pow_add] at hhigh
  have hq : 2 ^ 52 ≤ m / 2 ^ sh ∧ m / 2 ^ sh < 2 ^ 53 := by
    rw [Nat.le_div_iff_mul_le (by positivity), Nat.div_lt_iff_lt_mul (by positivity)]
    exact ⟨hlow, hhigh⟩
  simp only [roundShift]
  split <;> omega

theorem roundUnits_mul_two_pow {m sh c d : Nat} (hlog : m.log2 = sh + 52) (hd : d ≤ sh + c) :
    roundUnits (m * 2 ^ c) d =
      BitVec.ofNat 64 (min ((sh + c - d) * 2 ^ 52 + roundShift m sh) (0x7FF * 2 ^ 52)) := by
  have hm : m ≠ 0 := by rintro rfl; simp at hlog
  have hmax : max d ((m * 2 ^ c).log2 - 52) = sh + c := by rw [log2_mul_two_pow c hm]; omega
  simp only [roundUnits, hmax, roundShift_mul_two_pow]

/-! ### Normal numbers: exponent `e` of the last significand bit, significand `q` with its leading 1 -/

theorem unitsOf_normal {b : Word} {e q : Nat} (hb : b.toNat = e * 2 ^ 52 + q) (hq : 2 ^ 52 ≤ q ∧ q < 2 ^ 53) :
    unitsOf b = q * 2 ^ e := by
  have hdiv : b.toNat / 2 ^ 52 = e + 1 := by omega
  have hmod : b.toNat % 2 ^ 52 + 2 ^ 52 = q := by omega
  simp only [unitsOf, significand, exponent, hdiv, hmod, Nat.add_sub_cancel, Nat.succ_ne_zero, if_false]

/-- The fields of a normal pattern, put together by the integer procedures with a shift and an OR (R125, R126). -/
theorem fields_eq_normal {q : Nat} (e : Nat) (hq : 2 ^ 52 ≤ q ∧ q < 2 ^ 53) :
    (e + 1) <<< 52 ||| (q - 2 ^ 52) = e * 2 ^ 52 + q := by
  rw [← Nat.shiftLeft_add_eq_or_of_lt (by omega), Nat.shiftLeft_eq]
  omega

theorem roundUnits_normal {q c d : Nat} (hq : 2 ^ 52 ≤ q ∧ q < 2 ^ 53) (hd : d ≤ c) (hc : c - d ≤ 2045) :
    roundUnits (q * 2 ^ c) d = BitVec.ofNat 64 ((c - d) * 2 ^ 52 + q) := by
  have hlog : q.log2 = 0 + 52 := (Nat.log2_eq_iff (by omega)).2 hq
  rw [roundUnits_mul_two_pow hlog (by omega), roundShift_zero, Nat.zero_add]
  congr 1
  omega

/-- A number below 2^53 as a 53-bit significand, its leading 1 shifted to bit 52. -/
def normalSignificand (m : Nat) : Nat := m * 2 ^ (52 - m.log2)

theorem log2_le_of_lt {m : Nat} (hm : m < 2 ^ 53) : m.log2 ≤ 52 := by
  obtain rfl | h0 := Nat.eq_zero_or_pos m
  · simp
  · exact Nat.le_of_lt_succ ((Nat.log2_lt h0.ne').2 hm)

theorem normalSignificand_bounds {m : Nat} (h0 : m ≠ 0) (hm : m < 2 ^ 53) :
    2 ^ 52 ≤ normalSignificand m ∧ normalSignificand m < 2 ^ 53 := by
  have hle := log2_le_of_lt hm
  rw [normalSignificand, ← Nat.log2_eq_iff (by positivity), log2_mul_two_pow _ h0]
  omega

theorem mul_two_pow_eq_normalSignificand (m : Nat) {c : Nat} (hc : 52 ≤ c) :
    m * 2 ^ c = normalSignificand m * 2 ^ (c - (52 - m.log2)) := by
  rw [normalSignificand, Nat.mul_assoc, ← pow_add, Nat.add_sub_cancel' (by omega)]

/-- A value of at most 53 significant bits is its own rounding. -/
theorem unitsOf_roundUnits {m c : Nat} (hm : m < 2 ^ 53) (hc : 52 ≤ c) (hc' : c ≤ 2045) :
    unitsOf (roundUnits (m * 2 ^ c) 0) = m * 2 ^ c := by
  obtain rfl | h0 := Decidable.eq_or_ne m 0
  · rw [Nat.zero_mul]
    rfl
  · have hq := normalSignificand_bounds h0 hm
    rw [mul_two_pow_eq_normalSignificand m hc, roundUnits_normal hq (Nat.zero_le _) (by omega)]
    exact unitsOf_normal (by rw [BitVec.toNat_ofNat]; omega) hq

/-! ### The operands of the conversions (R124) -/

theorem unitsOf_f64 {k : Nat} (hk : k < 2 ^ 53) : unitsOf (f64 k) = k * 2 ^ 1074 :=
  unitsOf_roundUnits hk (by decide) (by decide)

/-- The exact product of two operands, before it is rounded (R14). -/
theorem f64mul_of_units {a b : Word} {m q i j n : Nat} (ha : unitsOf a = m * 2 ^ i) (hb : unitsOf b = q * 2 ^ j)
    (hn : i + j = n) : f64mul a b = roundUnits (m * q * 2 ^ n) 1074 := by
  rw [f64mul, ha, hb, Nat.mul_mul_mul_comm, ← pow_add, hn]

theorem unitsOf_recipA : unitsOf recipA = (2 ^ 52 + 1) * 2 ^ 969 :=
  unitsOf_normal (by decide) (by decide)

theorem unitsOf_recipB : unitsOf recipB = 2 ^ 52 * 2 ^ 969 :=
  unitsOf_normal (by decide) (by decide)

theorem unitsOf_recipC : unitsOf recipC = 2 ^ 52 * 2 ^ 970 :=
  unitsOf_normal (by decide) (by decide)

theorem unitsOf_half : unitsOf half = 2 ^ 52 * 2 ^ 1021 :=
  unitsOf_normal (by decide) (by decide)

/-! ### NEXT_F64A (R125) -/

/-- The rounding step of R125: ties to even, and nothing to round at `sh` = 0. -/
theorem roundShift_eq_procedure (P sh : Nat) :
    (if sh > 0 ∧ (P % 2 ^ sh > 2 ^ (sh - 1) ∨ (P % 2 ^ sh = 2 ^ (sh - 1) ∧ (P >>> sh) % 2 = 1)) then P >>> sh + 1
      else P >>> sh) = roundShift P sh := by
  rw [Nat.shiftRight_eq_div_pow]
  cases sh with
  | zero => simp [roundShift_zero]
  | succ n =>
    have hcond (r : Nat) : (r > 2 ^ n ↔ 2 * r > 2 ^ (n + 1)) ∧ (r = 2 ^ n ↔ 2 * r = 2 ^ (n + 1)) := by
      rw [pow_succ]; omega
    simp only [roundShift, Nat.add_sub_cancel, (hcond _).1, (hcond _).2, Nat.succ_pos, true_and, gt_iff_lt]

/-- The procedure's carry case, where the rounded significand is 2^53, is the carry into the exponent field that
`roundUnits` gets by adding (R125). -/
theorem f64mul_recipA {k : Nat} (hk : k < 2 ^ 53) : f64mul (f64 k) recipA = procedureA k := by
  obtain rfl | h0 := Decidable.eq_or_ne k 0
  · decide +kernel
  have hP : k * (2 ^ 52 + 1) ≠ 0 := by positivity
  have hlow : 52 ≤ (k * (2 ^ 52 + 1)).log2 := (Nat.le_log2 hP).2 (by omega)
  have hhigh : (k * (2 ^ 52 + 1)).log2 < 106 := (Nat.log2_lt hP).2 (by omega)
  rw [f64mul_of_units (unitsOf_f64 hk) unitsOf_recipA rfl]
  simp only [procedureA, if_neg h0, roundShift_eq_procedure]
  generalize k * (2 ^ 52 + 1) = P at hlow hhigh
  obtain ⟨sh, hlog⟩ := Nat.exists_eq_add_of_le' hlow
  obtain ⟨hq, hq'⟩ := roundShift_bounds hlog
  rw [roundUnits_mul_two_pow hlog (by omega), hlog, Nat.add_sub_cancel]
  congr 1
  split
  next hcarry =>
    rw [hcarry, Nat.sub_self, Nat.or_zero, Nat.shiftLeft_eq]
    omega
  next hne =>
    rw [fields_eq_normal (sh + 969) ⟨hq, by omega⟩]
    omega

/-! ### NEXT_F64B and NEXT_F64C (R126, R127) -/

/-- m * 2^-53 has at most 53 significant bits, so it is exact (R126). -/
theorem roundUnits_eq_exactPattern {m : Nat} (h0 : m ≠ 0) (hm : m < 2 ^ 53) :
    roundUnits (m * 2 ^ 52 * 2 ^ 2043) 1074 = exactPattern m := by
  have hle := log2_le_of_lt hm
  have hq := normalSignificand_bounds h0 hm
  have hexp : 52 + 2043 - (52 - m.log2) - 1074 = m.log2 + 969 := by omega
  rw [Nat.mul_assoc, ← pow_add, mul_two_pow_eq_normalSignificand m (by decide),
    roundUnits_normal hq (by omega) (by omega), hexp, ← fields_eq_normal _ hq,
    exactPattern, Nat.shiftLeft_eq m, normalSignificand]

theorem f64mul_recipB {k : Nat} (hk : k < 2 ^ 53) : f64mul (f64 k) recipB = procedureB k := by
  obtain rfl | h0 := Decidable.eq_or_ne k 0
  · decide +kernel
  rw [f64mul_of_units (unitsOf_f64 hk) unitsOf_recipB rfl, roundUnits_eq_exactPattern h0 hk, procedureB, if_neg h0]

/-- The sum k + 1/2 has at most 53 significant bits, so it is not rounded (R127). -/
theorem unitsOf_f64add_half {k : Nat} (hk : k < 2 ^ 52) :
    unitsOf (f64add (f64 k) half) = (2 * k + 1) * 2 ^ 1073 := by
  have hsum (n : Nat) : k * 2 ^ (n + 1) + 2 ^ n = (2 * k + 1) * 2 ^ n := by ring
  rw [f64add, unitsOf_f64 (by omega), unitsOf_half, ← pow_add, hsum 1073,
    unitsOf_roundUnits (by omega) (by decide) (by decide)]

theorem f64mul_f64add_half_recipC {k : Nat} (hk : k < 2 ^ 52) :
    f64mul (f64add (f64 k) half) recipC = procedureC k := by
  rw [f64mul_of_units (unitsOf_f64add_half hk) unitsOf_recipC rfl,
    roundUnits_eq_exactPattern (by omega) (by omega), procedureC]

/-! ### The conversions of a drawn word (R125 to R127) -/

theorem convertF64A_eq_procedureA (x : Word) : convertF64A x = procedureA (x >>> 11).toNat :=
  f64mul_recipA (x.toNat_ushiftRight_lt 11 (by decide))

theorem convertF64B_eq_procedureB (x : Word) : convertF64B x = procedureB (x >>> 11).toNat :=
  f64mul_recipB (x.toNat_ushiftRight_lt 11 (by decide))

theorem convertF64C_eq_procedureC (x : Word) : convertF64C x = procedureC (x >>> 12).toNat :=
  f64mul_f64add_half_recipC (x.toNat_ushiftRight_lt 12 (by decide))

end Sys2Proof.Machine

/-! PROOF. Draw (42_output.md R120): the model's steps are those of the transcribed Draw, and each NEXT_* command emits
the drawn word under its own conversion. -/

namespace Sys2Proof.Machine

/-- Draw step 1 with the in-place seeding (R120). -/
theorem ensureSeeded_eq_inPlace (s : State) :
    ensureSeeded s =
      if s.seeded = false then { s with S := inPlaceScalarSeed 5489#64 s.S, seeded := true, index := 0#9 } else s := by
  rw [inPlaceScalarSeed_eq]
  cases h : s.seeded with
  | false => rw [ensureSeeded_of_unseeded s h, if_pos rfl, scalarSeed, defaultSeed]
  | true => rw [ensureSeeded_of_seeded s h, if_neg (by decide)]

/-- Draw step 2 with the in-place twist (R120). -/
theorem refill_eq_inPlace (s : State) :
    refill s =
      if s.index.toNat = 0 ∨ s.index.toNat ≥ 312 then
        { s with S := inPlaceTwist s.S, twists := s.twists + 1, index := 0#9 } else s := by
  split
  next h => rw [refill_exhausted s h, twist, twistWords_eq_inPlaceTwist]
  next h => exact refill_within s h

theorem drawReady_eq_pseudoReady (s : State) : drawReady s = pseudoReady s := by
  rw [drawReady, refill_eq_inPlace, ensureSeeded_eq_inPlace, pseudoReady]

/-- Draw's five steps return the word and leave the state of the transcribed Draw (R120). -/
theorem draw_eq_pseudoDraw (s : State) : (drawWord s, drawState s) = pseudoDraw s := by
  have hword := readWord_eq_getElem (drawReady s).S (drawReady s).index.toNat (refill_index_lt _)
  rw [pseudoDraw, ← drawReady_eq_pseudoReady, hword]
  rfl

theorem drawAndEmit_eq_pseudoEmit (convert : Word → Word) (s : State) :
    drawAndEmit convert s = pseudoEmit convert s := by
  rw [pseudoEmit, ← draw_eq_pseudoDraw]
  rfl

/-- A NEXT_* command draws one word and emits it under the command's conversion (R122 to R127). -/
theorem effect_of_resultConversion {i : Instr} {convert : Word → Word} (h : resultConversion i = some convert) :
    effect i = drawAndEmit convert := by
  cases i with
  | seed v => cases h
  | seedArray keys => cases h
  | nextU64 => cases h; rfl
  | nextI63 => cases h; rfl
  | nextF64A => cases h; exact congrArg drawAndEmit (funext convertF64A_eq_procedureA)
  | nextF64B => cases h; exact congrArg drawAndEmit (funext convertF64B_eq_procedureB)
  | nextF64C => cases h; exact congrArg drawAndEmit (funext convertF64C_eq_procedureC)

/-- Settles O39: the model's Draw is the transcribed one, and its rounded conversions are the integer procedures. -/
theorem drawFollowsItsSteps : Obligations.DrawFollowsItsSteps := by
  intro s i convert hi hs
  rw [exec_eq_serve, serve_inService _ _ hs, effect_of_resultConversion hi, drawAndEmit_eq_pseudoEmit]

end Sys2Proof.Machine

/-! PROOF. Faults (60_exceptions.md): a fault is raised by SEED_ARRAY's key check or by an illegal command word, and it
writes FAULT and CAUSE only; with nothing on the input the engine holds its state (70_reset_and_hazards.md R168). -/

namespace Sys2Proof.Machine

/-! ### The faults of SEED_ARRAY (R153, R154) -/

theorem exec_seedArray_empty (s : State) (h : s.InService) :
    exec (.seedArray []) s = .next (raiseFault .emptyKeys s) := by
  have hk : checkKeys s.config [] = .empty := (checkKeys_eq_empty _ _).2 rfl
  rw [exec_eq_serve, serve_inService _ _ h]
  simp only [effect, hk]

theorem exec_seedArray_overflow (keys : List Word) (s : State) (h : s.InService)
    (hlen : s.config.keyMax < keys.length) : exec (.seedArray keys) s = .next (raiseFault .keyOverflow s) := by
  have hk : checkKeys s.config keys = .overflow :=
    (checkKeys_eq_overflow _ _).2 ⟨List.ne_nil_of_length_pos (Nat.zero_lt_of_lt hlen), hlen⟩
  rw [exec_eq_serve, serve_inService _ _ h]
  simp only [effect, hk]

/-- Settles O22: the key check finds the empty sequence and raises EMPTY_KEYS before any seeding. -/
theorem emptyKeySequenceFaults : Obligations.EmptyKeySequenceFaults := exec_seedArray_empty

/-- Settles O23: a sequence longer than KEY_MAX is not empty, so the key check raises KEY_OVERFLOW. -/
theorem tooManyKeysFault : Obligations.TooManyKeysFault := fun s keys hs hlen =>
  exec_seedArray_overflow keys s hs hlen

/-! ### Precision (R158) -/

theorem causeCode_mem (c : FaultCause) : causeCode c ∈ [1#4, 2#4, 3#4] := by cases c <;> decide

theorem drawAndEmit_fault (convert : Word → Word) (s : State) : (drawAndEmit convert s).fault = s.fault := by
  obtain ⟨-, hfault, -⟩ := drawReady_frame s
  exact hfault

/-- A command that leaves an engine in service faulted did nothing but raise a fault: only SEED_ARRAY can, and its
key check comes before its seeding (R155, R158). -/
theorem effect_eq_raiseFault (i : Instr) {s : State} (hs : s.InService) (hfault : (effect i s).fault = true) :
    ∃ c, effect i s = raiseFault c s := by
  have hkept (h : (effect i s).fault = s.fault) : ∃ c, effect i s = raiseFault c s :=
    absurd hfault (by rw [h, hs]; decide)
  cases i with
  | seed v => exact hkept rfl
  | seedArray keys =>
    rcases hk : checkKeys s.config keys with _ | _ | _
    · exact ⟨.emptyKeys, by simp only [effect, hk]⟩
    · exact ⟨.keyOverflow, by simp only [effect, hk]⟩
    · exact hkept (by simp only [effect, hk, arraySeed_fault])
  | nextU64 => exact hkept (drawAndEmit_fault _ s)
  | nextI63 => exact hkept (drawAndEmit_fault _ s)
  | nextF64A => exact hkept (drawAndEmit_fault _ s)
  | nextF64B => exact hkept (drawAndEmit_fault _ s)
  | nextF64C => exact hkept (drawAndEmit_fault _ s)

/-- A step from service to a fault takes words off the input and raises the fault, and does nothing else (R158). -/
theorem step_eq_raiseFault {s t : State} (hs : s.InService) (h : step s = .next t) (hfault : t.fault = true) :
    ∃ c rest, t = raiseFault c (takeInput rest s) := by
  obtain ⟨i, u, hrun, hexec⟩ | hdone := step_cases h
  · obtain ⟨-, rest, -, rfl⟩ := fetch_run hrun
    have hs' : (takeInput rest s).InService := hs
    rw [exec_eq_serve, serve_inService _ _ hs'] at hexec
    injection hexec with ht
    subst ht
    obtain ⟨c, hc⟩ := effect_eq_raiseFault i hs' hfault
    exact ⟨c, rest, hc⟩
  · obtain rfl | ⟨hf, -⟩ | ⟨-, rfl⟩ | ⟨-, cw, rest, -, rfl⟩ := fetch_done hdone
    · simp [hs] at hfault
    · simp [hs] at hf
    · simp at hfault
    · exact ⟨.illegalCommand, rest, rfl⟩

/-- Settles O24: the step raised one fault on the state with the words taken, and the fault entry writes FAULT and one
of the three codes of R151. -/
theorem faultsArePrecise : Obligations.FaultsArePrecise := by
  intro s t hs h hfault
  obtain ⟨c, rest, rfl⟩ := step_eq_raiseFault hs h hfault
  exact ⟨rfl, causeCode_mem c⟩

/-! ### Nothing on the input (R168) -/

theorem fetch_of_no_input {s : State} (h : s.input = []) : fetch s = .done s := by
  unfold fetch
  split
  · simp only [fetchFaulted, h]
  · simp only [fetchReady, h, decode]

/-- Settles O7: with no word to take, the fetch of a faulted engine and of one in service answer the same state. -/
theorem idleEngineHoldsState : Obligations.IdleEngineHoldsState := by
  intro s h
  simp only [step, fetch_of_no_input h]

end Sys2Proof.Machine

/-! PROOF. The decoder and the encoder (30_encoding.md sections 1 and 2): a command's words decode to it, only they do,
and an illegal command word is rejected by the check it fails. -/

namespace Sys2Proof

/-! ### A command's words decode to it (R60 to R64) -/

/-- What a well-formed command's words are: each command has its law under `Laws.OperandWords`. -/
theorem operandWords (i : Instr) : Laws.OperandWords.Statement i := by
  cases i with
  | seed v => exact Laws.OperandWords.seed v
  | seedArray keys => exact Laws.OperandWords.seedArray keys
  | nextU64 => exact Laws.OperandWords.nextU64
  | nextI63 => exact Laws.OperandWords.nextI63
  | nextF64A => exact Laws.OperandWords.nextF64A
  | nextF64B => exact Laws.OperandWords.nextF64B
  | nextF64C => exact Laws.OperandWords.nextF64C

theorem assemble_opcode_operands (i : Instr) : assemble (opcode i) (operands i) = .ok i := by cases i <;> rfl

/-- The opcodes of the commands other than SEED_ARRAY are the six whose LEN must be 0 (R64, R65). -/
theorem isFixedOpcode_opcode (i : Instr) (h : opcode i ≠ 0x02#8) : isFixedOpcode (opcode i) = true := by
  cases i with
  | seedArray keys => exact absurd rfl h
  | _ => rfl

theorem checkCommand_of_opcode {cw : CommandWord} {i : Instr} (hop : opField cw = opcode i)
    (hlen : opcode i ≠ 0x02#8 → lenField cw = 0#24) : checkCommand cw = .ok () := by
  unfold checkCommand
  rw [hop]
  split
  · rfl
  next h => rw [if_pos (isFixedOpcode_opcode i h), if_pos (hlen h)]

theorem decodeChecked_of_assemble {cw : CommandWord} {ops : List Word} {i : Instr} (rest : List HostInput)
    (hn : ops.length = operandCount cw) (hi : assemble (opField cw) ops = .ok i) :
    decodeChecked cw (ops.map .operand ++ rest) = .ok (i, rest) := by
  simp only [decodeChecked, ← hn, takeOperands_operands, hi]

theorem decode_encode (i : Instr) (rest : List HostInput) (h : i.WellFormed) :
    decode (encode i ++ rest) = .ok (i, rest) := by
  obtain ⟨cw, hwords, hop, hlen, hcount⟩ := operandWords i h
  have hcheck : checkCommand cw = .ok () := by
    refine checkCommand_of_opcode hop fun hne => ?_
    rw [if_neg hne] at hlen
    exact BitVec.eq_of_toNat_eq hlen
  rw [hwords, List.cons_append, decode_of_checkCommand_ok _ hcheck]
  exact decodeChecked_of_assemble rest hcount.symm (by rw [hop, assemble_opcode_operands])

/-- Settles O1: the command word passes its checks, declares exactly the operand words that follow, and these assemble
to the command. -/
theorem decodeOfEncode : Obligations.DecodeOfEncode := decode_encode

/-! ### Only a command's words decode to it -/

/-- What the decoder read a command from: a command word that passed its checks, then the operand words it declares. -/
theorem decode_ok {inp rest : List HostInput} {i : Instr} (h : decode inp = .ok (i, rest)) :
    ∃ cw, inp = .command cw :: ((operands i).map .operand ++ rest) ∧ checkCommand cw = .ok () ∧
      opField cw = opcode i ∧ (operands i).length = operandCount cw ∧
      (∀ keys, i = .seedArray keys → keys.length = (lenField cw).toNat) ∧
      ((∀ keys, i ≠ .seedArray keys) → lenField cw = 0#24) := by
  rcases inp with _ | ⟨cw | w | _, inp⟩
  · simp [decode] at h
  · rcases hc : checkCommand cw with e | ⟨⟩
    · simp [decode_of_checkCommand_error inp hc] at h
    · rw [decode_of_checkCommand_ok inp hc, decodeChecked] at h
      split at h
      · cases h
      next ops rest' htake =>
        obtain ⟨hn, rfl⟩ := takeOperands_ok _ _ _ _ htake
        obtain ⟨j, hj, hop, rfl, hkeys, hfixed⟩ := assemble_of_checked hc hn
        obtain ⟨rfl, rfl⟩ : j = i ∧ rest' = rest := by simpa [hj] using h
        exact ⟨cw, rfl, hc, hop.symm, hn, hkeys, hfixed⟩
  · simp [decode] at h
  · simp [decode] at h

theorem encodedLen_eq_lenField {cw : CommandWord} {i : Instr}
    (hkeys : ∀ keys, i = .seedArray keys → keys.length = (lenField cw).toNat)
    (hfixed : (∀ keys, i ≠ .seedArray keys) → lenField cw = 0#24) : encodedLen i = lenField cw := by
  cases i with
  | seedArray keys => rw [encodedLen, hkeys keys rfl, BitVec.ofNat_toNat, BitVec.setWidth_eq]
  | _ => exact (hfixed (by simp)).symm

theorem decode_wellFormed {inp rest : List HostInput} {i : Instr} (h : decode inp = .ok (i, rest)) :
    i.WellFormed := by
  obtain ⟨cw, -, -, -, -, hkeys, -⟩ := decode_ok h
  cases i with
  | seedArray keys =>
    have hlt := (lenField cw).isLt
    rw [← hkeys keys rfl] at hlt
    exact Nat.le_of_lt_succ hlt
  | _ => trivial

/-- Settles O2: the command word's fields are the command's LEN and opcode, so the word is the one `encode` writes. -/
theorem decodedWordsAreTheEncoding : Obligations.DecodedWordsAreTheEncoding := by
  intro inp i rest h
  obtain ⟨cw, rfl, -, hop, -, hkeys, hfixed⟩ := decode_ok h
  refine ⟨decode_wellFormed h, ?_⟩
  rw [encode, encodedLen_eq_lenField hkeys hfixed, ← hop, commandWord_fields, List.cons_append]

/-! ### Illegal command words (R65) -/

/-- Settles O4: an unassigned OP fails the check of the opcode; the six fixed opcodes pass it and fail the check of LEN. -/
theorem illegalWordsAreRejectedByName : Obligations.IllegalWordsAreRejectedByName := by
  intro cw rest
  have htwo : Machine.pseudoOp cw = 2 ↔ opField cw = 0x02#8 := Machine.pseudoOp_eq_iff cw 2 (by decide)
  have hfixed := Machine.pseudoOp_fixed_iff cw
  constructor
  · intro hop
    have hne : opField cw ≠ 0x02#8 := fun h => hop (by simp [htwo.2 h])
    have hnot : ¬ isFixedOpcode (opField cw) = true := fun h => hop (by have := hfixed.2 h; simp at this ⊢; tauto)
    apply decode_of_checkCommand_error
    rw [checkCommand, if_neg hne, if_neg hnot]
  · intro hop hlen
    have hne : opField cw ≠ 0x02#8 := fun h => by simp [htwo.2 h] at hop
    have hlen' : lenField cw ≠ 0#24 := fun h => hlen (by rw [Machine.pseudoLen_eq, h]; rfl)
    apply decode_of_checkCommand_error
    rw [checkCommand, if_neg hne, if_pos (hfixed.1 hop), if_neg hlen']

/-- Settles O3: the decoder run on the twelve words. -/
theorem opcodeMapWords : Obligations.OpcodeMapWords := by
  unfold Obligations.OpcodeMapWords
  decide

end Sys2Proof

/-! PROOF. One step (30_encoding.md sections 1 and 3, 60_exceptions.md, 70_reset_and_hazards.md section 1): what it
answers for each kind of input, and that it does what Execute does. -/

namespace Sys2Proof.Machine

/-! ### The step of an engine in service, by what the decoder says -/

theorem fetch_inService {s : State} (h : s.InService) : fetch s = fetchReady s := by
  simp only [fetch, h, Bool.false_eq_true, if_false]

theorem fetch_faulted {s : State} (h : s.fault = true) : fetch s = fetchFaulted s := by
  simp only [fetch, h, if_true]

theorem step_of_decode_ok {s : State} {i : Instr} {rest : List HostInput} (hs : s.InService)
    (h : decode s.input = .ok (i, rest)) : step s = exec i (takeInput rest s) := by
  simp only [step, fetch_inService hs, fetchReady, h]

theorem step_of_incomplete {s : State} (hs : s.InService) (h : decode s.input = .error .incomplete) :
    step s = .next s := by
  simp only [step, fetch_inService hs, fetchReady, h]

theorem step_of_resetAhead {s : State} (hs : s.InService) (h : decode s.input = .error .resetAhead) :
    step s = .next (applyReset (afterReset s.input) s) := by
  simp only [step, fetch_inService hs, fetchReady, h]

/-- An illegal command word faults at once and is taken alone (R152). -/
theorem step_of_illegalWord {s : State} {cw : CommandWord} {rest : List HostInput} (hs : s.InService)
    (hi : s.input = .command cw :: rest) (h : IllegalWord cw) :
    step s = .next (raiseFault .illegalCommand (takeInput rest s)) := by
  obtain ⟨e, he⟩ := (illegalWord_iff_check cw).1 h
  have hd : decode s.input = .error e := by rw [hi, decode_of_checkCommand_error rest he]
  rw [step, fetch_inService hs, fetchReady]
  obtain rfl | rfl := checkCommand_error he
  · simp only [hd]
    rw [hi, List.tail_cons]
  · simp only [hd]
    rw [hi, List.tail_cons]

/-- A reset at the front of the input takes effect, on any engine (R180). -/
theorem step_of_reset {s : State} {rest : List HostInput} (hi : s.input = .reset :: rest) :
    step s = .next (applyReset rest s) := by
  cases hf : s.fault with
  | false => rw [step_of_resetAhead hf (by rw [hi, decode]), hi, afterReset]
  | true => simp only [step, fetch_faulted hf, fetchFaulted, hi]

/-- Every command answers a next state, in every state (R67). -/
theorem exec_next (i : Instr) (s : State) : ∃ t, exec i s = .next t := by
  rw [exec_eq_serve]
  cases hf : s.fault with
  | false => exact ⟨_, serve_inService _ _ hf⟩
  | true => exact ⟨_, serve_faulted _ _ hf⟩

theorem exec_inService (i : Instr) {s : State} (h : s.InService) : exec i s = .next (effect i s) := by
  rw [exec_eq_serve, serve_inService _ _ h]

theorem takeInput_inService (rest : List HostInput) {s : State} (h : s.InService) : (takeInput rest s).InService := h

theorem exec_faulted (i : Instr) {s : State} (h : s.fault = true) : exec i s = .next s := by
  rw [exec_eq_serve, serve_faulted _ _ h]

/-- Settles O5: the fetch of an engine in service hands the decoded command to `exec`. -/
theorem stepRunsDecodedCommand : Obligations.StepRunsDecodedCommand := fun _ _ _ hs h => step_of_decode_ok hs h

/-- Settles O21: the word fails the decoder's checks, and either reason raises ILLEGAL_COMMAND. -/
theorem illegalCommandWordFaults : Obligations.IllegalCommandWordFaults := fun _ _ _ hs h hi =>
  step_of_illegalWord hs hi h

/-! ### A part of a command (R60, R181) -/

/-- A legal command word whose operand words stop short: the decoder's reason is why they stopped. -/
theorem decode_of_takeOperands_error {cw : CommandWord} {inp : List HostInput} {e : Reject} (h : ¬ IllegalWord cw)
    (he : takeOperands (declaredOperands cw) inp = .error e) : decode (.command cw :: inp) = .error e := by
  obtain ⟨hcheck, hcount⟩ := legalWord_checked h
  rw [decode_of_checkCommand_ok _ hcheck]
  exact decodeChecked_error (by rw [← hcount, he])

/-- Settles O8: with operand words missing at the end of the input the decoder finds the command incomplete. -/
theorem partialCommandWaits : Obligations.PartialCommandWaits := by
  intro s cw ops hs hlegal hi hlen
  refine step_of_incomplete hs ?_
  rw [hi]
  exact decode_of_takeOperands_error hlegal (takeOperands_short _ _ hlen)

/-- Settles O9: a whole command decodes whatever follows it; a command cut short is discarded with the reset, which
then acts as one at the front of the input. -/
theorem resetOnlyBetweenCommands : Obligations.ResetOnlyBetweenCommands := by
  constructor
  · intro s i rest hs hwf hi
    exact step_of_decode_ok hs (by rw [hi, decode_encode i _ hwf])
  · intro s cw ops rest hs hlegal hi hlen
    have hcut : decode s.input = .error .resetAhead := by
      rw [hi]
      exact decode_of_takeOperands_error hlegal (takeOperands_cut _ _ rest hlen)
    rw [step_of_resetAhead hs hcut, hi, afterReset, afterReset_operands, step_of_reset rfl]
    rfl

theorem status_applyReset (rest : List HostInput) (s : State) : status (applyReset rest s) = 0#32 := by
  simp [status, flagBit]

/-- Settles O10: the reset is applied to any engine, and it writes each of these fields or keeps it. -/
theorem resetRestartsTheEngine : Obligations.ResetRestartsTheEngine := fun s rest hi =>
  ⟨applyReset rest s, step_of_reset hi, rfl, rfl, rfl, rfl, status_applyReset rest s, rfl, rfl, rfl⟩

/-! ### A faulted engine (R157, R159) -/

theorem step_faulted_discards {s : State} {w : HostInput} {rest : List HostInput} (hf : s.fault = true)
    (hi : s.input = w :: rest) (hw : w ≠ .reset) : step s = .next (takeInput rest s) := by
  cases w with
  | command cw => simp only [step, fetch_faulted hf, fetchFaulted, hi]
  | operand v => simp only [step, fetch_faulted hf, fetchFaulted, hi]
  | reset => exact absurd rfl hw

/-- The fields of STATUS, for every CAUSE and flag (R26). -/
theorem status_fields (cause : BitVec 4) (fault seeded : Bool) :
    let w := (cause.setWidth 32 <<< 4) ||| (flagBit fault <<< 1) ||| flagBit seeded
    w.getLsbD 0 = seeded ∧ w.getLsbD 1 = fault ∧ w.extractLsb' 2 2 = 0#2 ∧ w.extractLsb' 4 4 = cause ∧
      w.extractLsb' 8 24 = 0#24 := by
  revert cause fault seeded
  decide

/-- Settles O15. STATUS is a function of CAUSE, FAULT and seeded. -/
theorem statusRegisterFields : Obligations.StatusRegisterFields := fun s => status_fields s.cause s.fault s.seeded

/-- Settles O25: a faulted engine discards a word that is no reset, and so a step that left it in service had a reset at
the front of its input. -/
theorem faultedEngineDiscards : Obligations.FaultedEngineDiscards := by
  intro s hf
  obtain ⟨-, hfault, -, hcause, -⟩ := statusRegisterFields s
  refine ⟨fun cw rest hi => step_faulted_discards hf hi (by simp),
    fun w rest hi => step_faulted_discards hf hi (by simp),
    fun i => exec_faulted i hf, hfault.trans hf, hcause, fun t h ht => ?_⟩
  have hkept (u : State) (hu : step s = .next u) (hfu : u.fault = true) : False := by
    rw [hu] at h
    injection h with h
    rw [← h, hfu] at ht
    cases ht
  rcases hi : s.input with _ | ⟨w, rest⟩
  · exact (hkept s (idleEngineHoldsState s hi) hf).elim
  · cases w with
    | reset => exact ⟨rest, rfl⟩
    | command cw => exact (hkept _ (step_faulted_discards hf hi (by simp)) hf).elim
    | operand v => exact (hkept _ (step_faulted_discards hf hi (by simp)) hf).elim

/-! ### The steps with no move (R163) -/

/-- A command word among the operand words that a legal command still has due: where it stands (R163). -/
theorem decode_commandInsideOperands {inp : List HostInput} (h : decode inp = .error .commandInsideOperands) :
    ∃ (cw : CommandWord) (ops : List Word) (cw' : CommandWord) (rest : List HostInput), ¬ IllegalWord cw ∧
      ops.length < declaredOperands cw ∧ inp = .command cw :: (ops.map .operand ++ .command cw' :: rest) := by
  rcases decode_error h with ⟨h', -⟩ | ⟨h', -⟩ | ⟨h', -⟩ | ⟨cw, rest, -, hc⟩ | ⟨cw, inp', rfl, hc, -⟩
  · cases h'
  · cases h'
  · cases h'
  · rcases checkCommand_error hc with h' | h' <;> cases h'
  · have hlegal : ¬ IllegalWord cw := by
      rw [illegalWord_iff_check, hc]
      simp
    rw [decode_of_checkCommand_ok _ hc, decodeChecked, ← (legalWord_checked hlegal).2] at h
    split at h
    next e htake =>
      obtain rfl : e = .commandInsideOperands := by simpa using h
      obtain ⟨ops, cw', rest, hlen, rfl⟩ := takeOperands_inside _ _ htake
      exact ⟨cw, ops, cw', rest, hlegal, hlen, rfl⟩
    next ops rest htake =>
      have hn := (takeOperands_ok _ _ _ _ htake).1
      obtain ⟨i, hi, -⟩ := assemble_of_checked hc (hn.trans (legalWord_checked hlegal).2)
      simp [hi] at h

/-- The fetch stops only for a host that broke its duty, and only on an engine in service (R163). -/
theorem fetch_stop {s : State} {r : Refusal} (h : fetch s = .stop r) :
    s.InService ∧ (decode s.input = .error .operandWithoutCommand ∨ decode s.input = .error .commandInsideOperands) := by
  cases hf : s.fault with
  | true =>
    rw [fetch_faulted hf, fetchFaulted] at h
    split at h <;> cases h
  | false =>
    rw [fetch_inService hf, fetchReady] at h
    refine ⟨hf, ?_⟩
    rcases hd : decode s.input with e | ⟨i, rest⟩
    · cases e with
      | operandWithoutCommand => exact .inl rfl
      | commandInsideOperands => exact .inr rfl
      | _ => simp [hd] at h
    · simp [hd] at h

/-- Settles O11: the fetch hands over a command, which always answers a next state, or is done, or stops for a host that
broke its duty. -/
theorem stepMovesUnlessHostBreaksItsDuty : Obligations.StepMovesUnlessHostBreaksItsDuty := by
  intro s
  rcases hfetch : fetch s with ⟨i, u⟩ | t | r
  · obtain ⟨t, ht⟩ := exec_next i u
    exact .inl ⟨t, by simp only [step, hfetch, ht]⟩
  · exact .inl ⟨t, by simp only [step, hfetch]⟩
  · obtain ⟨hs, hdecode⟩ := fetch_stop hfetch
    refine .inr ⟨hs, ⟨r, by simp only [step, hfetch]⟩, ?_⟩
    obtain h | h := hdecode
    · left
      rcases decode_error h with ⟨h', -⟩ | ⟨h', -⟩ | ⟨-, hfront⟩ | ⟨cw, rest, -, hc⟩ | ⟨cw, rest, -, -, h' | h'⟩
      · cases h'
      · cases h'
      · exact hfront
      · rcases checkCommand_error hc with h' | h' <;> cases h'
      · cases h'
      · cases h'
    · exact .inr (decode_commandInsideOperands h)

/-! ### Execute (R67) -/

/-- Execute raises ILLEGAL_COMMAND for every illegal command word (R65, R67). -/
theorem pseudoExecute_illegal {cw : CommandWord} (ops : List Word) {s : State} (hs : s.InService)
    (h : IllegalWord cw) : pseudoExecute cw ops s = raiseFault .illegalCommand s := by
  have hnot : ¬ s.fault = true := by simp [hs]
  have htwo : pseudoOp cw ≠ 0x02 := by
    obtain hop | ⟨hop, -⟩ := h
    · exact fun c => hop (by simp [c])
    · exact hop
  rw [pseudoExecute, if_neg hnot, if_neg htwo]
  split
  next hfixed =>
    obtain hop | ⟨-, hlen⟩ := h
    · exact absurd (by simp at hfixed ⊢; tauto) hop
    · rw [if_pos hlen]
      rfl
  next => rfl

/-- Execute of a SEED_ARRAY word on its keys: LEN is the key count, and the checks come in the order of R155. -/
theorem pseudoExecute_seedArray {cw : CommandWord} (keys : List Word) {s : State} (hs : s.InService)
    (hop : pseudoOp cw = 0x02) (hlen : pseudoLen cw = keys.length) :
    pseudoExecute cw keys s = effect (.seedArray keys) s := by
  have hnot : ¬ s.fault = true := by simp [hs]
  rw [pseudoExecute, if_neg hnot, if_pos hop, hlen, List.take_length, inPlaceArraySeed_eq]
  by_cases hempty : keys = []
  · have hk : checkKeys s.config keys = .empty := (checkKeys_eq_empty _ _).2 hempty
    simp only [effect, hk]
    exact if_pos (List.length_eq_zero_iff.2 hempty)
  rw [if_neg (mt List.length_eq_zero_iff.1 hempty)]
  by_cases hover : s.config.keyMax < keys.length
  · have hk : checkKeys s.config keys = .overflow := (checkKeys_eq_overflow _ _).2 ⟨hempty, hover⟩
    simp only [effect, hk]
    exact if_pos hover
  · have hk : checkKeys s.config keys = .accepted := (checkKeys_eq_accepted _ _).2 ⟨hempty, Nat.le_of_not_lt hover⟩
    simp only [effect, hk]
    exact if_neg hover

/-- Execute of a legal command word with another opcode than SEED_ARRAY's: the word is not checked further (R67). -/
theorem pseudoExecute_fixed {cw : CommandWord} (ops : List Word) {s : State} (hs : s.InService)
    (hop : pseudoOp cw ∈ [0x01, 0x10, 0x11, 0x12, 0x13, 0x14]) (hlen : pseudoLen cw = 0) :
    pseudoExecute cw ops s =
      if pseudoOp cw = 0x01 then
        { s with S := inPlaceScalarSeed (ops.getD 0 0#64) s.S, seeded := true, index := 0#9 }
      else if pseudoOp cw = 0x10 then pseudoEmit (fun x => x) s
      else if pseudoOp cw = 0x11 then pseudoEmit (fun x => x >>> 1) s
      else if pseudoOp cw = 0x12 then pseudoEmit (fun x => procedureA (x >>> 11).toNat) s
      else if pseudoOp cw = 0x13 then pseudoEmit (fun x => procedureB (x >>> 11).toNat) s
      else pseudoEmit (fun x => procedureC (x >>> 12).toNat) s := by
  have hnot : ¬ s.fault = true := by simp [hs]
  have htwo : pseudoOp cw ≠ 0x02 := fun c => by simp [c] at hop
  rw [pseudoExecute, if_neg hnot, if_neg htwo, if_pos hop, if_neg (not_not.2 hlen)]

/-- Execute of a command's own word and operand words is the command's effect (R67). -/
theorem pseudoExecute_eq_effect {cw : CommandWord} (i : Instr) {s : State} (hs : s.InService)
    (hop : opField cw = opcode i) (hkeys : ∀ keys, i = .seedArray keys → keys.length = (lenField cw).toNat)
    (hfixed : (∀ keys, i ≠ .seedArray keys) → lenField cw = 0#24) :
    pseudoExecute cw (operands i) s = effect i s := by
  have hnum : pseudoOp cw = (opcode i).toNat := by rw [← hop, opField_toNat, pseudoOp]
  have hlen (h : ∀ keys, i ≠ .seedArray keys) : pseudoLen cw = 0 := by
    rw [pseudoLen_eq, hfixed h]
    rfl
  have hdraw {convert : Word → Word} (h : resultConversion i = some convert) : effect i s = pseudoEmit convert s := by
    rw [effect_of_resultConversion h, drawAndEmit_eq_pseudoEmit]
  cases i with
  | seed v =>
    have hnum : pseudoOp cw = 0x01 := hnum
    rw [pseudoExecute_fixed _ hs (by simp [hnum]) (hlen (by simp)), if_pos hnum, inPlaceScalarSeed_eq]
    rfl
  | seedArray keys => exact pseudoExecute_seedArray keys hs hnum (by rw [pseudoLen_eq, ← hkeys keys rfl])
  | nextU64 =>
    have hnum : pseudoOp cw = 0x10 := hnum
    rw [pseudoExecute_fixed _ hs (by simp [hnum]) (hlen (by simp)), hdraw rfl]
    simp [hnum]
  | nextI63 =>
    have hnum : pseudoOp cw = 0x11 := hnum
    rw [pseudoExecute_fixed _ hs (by simp [hnum]) (hlen (by simp)), hdraw rfl]
    simp [hnum]
  | nextF64A =>
    have hnum : pseudoOp cw = 0x12 := hnum
    rw [pseudoExecute_fixed _ hs (by simp [hnum]) (hlen (by simp)), hdraw rfl]
    simp [hnum]
  | nextF64B =>
    have hnum : pseudoOp cw = 0x13 := hnum
    rw [pseudoExecute_fixed _ hs (by simp [hnum]) (hlen (by simp)), hdraw rfl]
    simp [hnum]
  | nextF64C =>
    have hnum : pseudoOp cw = 0x14 := hnum
    rw [pseudoExecute_fixed _ hs (by simp [hnum]) (hlen (by simp)), hdraw rfl]
    simp [hnum]

/-- Settles O6: an illegal word faults in both; a legal word decodes to a command whose effect Execute has; a faulted
engine discards the word, and Execute refuses it. -/
theorem stepFollowsExecute : Obligations.StepFollowsExecute := by
  constructor
  · intro s cw ops rest hs hi hlen
    have hs' := takeInput_inService rest hs
    by_cases hillegal : IllegalWord cw
    · obtain rfl : ops = [] := by simpa [hillegal] using hlen
      rw [step_of_illegalWord hs hi hillegal]
      exact congrArg _ (pseudoExecute_illegal [] hs' hillegal).symm
    · obtain ⟨hcheck, hcount⟩ := legalWord_checked hillegal
      rw [if_neg hillegal, hcount] at hlen
      obtain ⟨i, hassemble, hop, rfl, hkeys, hfixed⟩ := assemble_of_checked hcheck hlen
      have hdecode : decode s.input = .ok (i, rest) := by
        rw [hi, decode_of_checkCommand_ok _ hcheck, decodeChecked_of_assemble rest hlen hassemble]
      rw [step_of_decode_ok hs hdecode, exec_inService i hs']
      exact congrArg _ (pseudoExecute_eq_effect i hs' hop.symm hkeys hfixed).symm
  · intro s cw ops rest hf hi
    have hkeep : pseudoExecute cw ops { s with input := rest } = { s with input := rest } := if_pos hf
    exact ⟨by rw [hkeep, step_faulted_discards hf hi (by simp)]; rfl, hkeep⟩

end Sys2Proof.Machine

/-! PROOF. What steps keep (10_state.md, 20_memory.md section 2, 41_twist.md section 1): every next state is one of a few
updates of the state before it, and each law of the steps is read off them. -/

namespace Sys2Proof.Machine

/-- What a command can do to an engine in service: seed it, raise a fault, or draw. -/
theorem effect_cases (i : Instr) (s : State) :
    (∃ v, effect i s = scalarSeed v s) ∨ (∃ keys, effect i s = arraySeed keys s) ∨
    (∃ c, effect i s = raiseFault c s) ∨
    ∃ convert, resultConversion i = some convert ∧ effect i s = drawAndEmit convert s := by
  have hdraw {convert : Word → Word} (h : resultConversion i = some convert) :
      ∃ convert, resultConversion i = some convert ∧ effect i s = drawAndEmit convert s :=
    ⟨convert, h, congrFun (effect_of_resultConversion h) s⟩
  cases i with
  | seed v => exact .inl ⟨v, rfl⟩
  | seedArray keys =>
    rcases hk : checkKeys s.config keys with _ | _ | _
    · exact .inr (.inr (.inl ⟨.emptyKeys, by simp only [effect, hk]⟩))
    · exact .inr (.inr (.inl ⟨.keyOverflow, by simp only [effect, hk]⟩))
    · exact .inr (.inl ⟨keys, by simp only [effect, hk]⟩)
  | _ => exact .inr (.inr (.inr (hdraw rfl)))

/-- Every update of the state that a step can be. -/
inductive Update (s : State) : State → Prop where
  | idle : Update s s
  | discard (rest : List HostInput) : Update s (takeInput rest s)
  | reset (h : HostInput.reset ∈ s.input) : Update s (applyReset (afterReset s.input) s)
  | fault (c : FaultCause) (rest : List HostInput) : Update s (raiseFault c (takeInput rest s))
  | seed (v : Word) (rest : List HostInput) : Update s (scalarSeed v (takeInput rest s))
  | seedArray (keys : List Word) (rest : List HostInput) : Update s (arraySeed keys (takeInput rest s))
  | draw (i : Instr) (rest : List HostInput) (convert : Word → Word) (hdecode : decode s.input = .ok (i, rest))
    (hi : resultConversion i = some convert) : Update s (drawAndEmit convert (takeInput rest s))

/-- Every next state is one of the updates. -/
theorem step_update {s t : State} (h : step s = .next t) : Update s t := by
  obtain ⟨i, u, hrun, hexec⟩ | hdone := step_cases h
  · obtain ⟨hs, rest, hdecode, rfl⟩ := fetch_run hrun
    rw [exec_inService i (takeInput_inService rest hs)] at hexec
    injection hexec with hexec
    subst hexec
    obtain ⟨v, he⟩ | ⟨keys, he⟩ | ⟨c, he⟩ | ⟨convert, hi, he⟩ := effect_cases i (takeInput rest s)
    · exact he ▸ .seed v rest
    · exact he ▸ .seedArray keys rest
    · exact he ▸ .fault c rest
    · exact he ▸ .draw i rest convert hdecode hi
  · obtain rfl | ⟨-, w, rest, -, -, rfl⟩ | ⟨hmem, rfl⟩ | ⟨-, cw, rest, -, rfl⟩ := fetch_done hdone
    · exact .idle
    · exact .discard rest
    · exact .reset hmem
    · exact .fault .illegalCommand rest

/-- What a draw keeps, and what it does to the cursor, the twist counter and the results (R120). -/
theorem drawAndEmit_frame (convert : Word → Word) (s : State) :
    (drawAndEmit convert s).seeded = true ∧ (drawAndEmit convert s).fault = s.fault ∧
    (drawAndEmit convert s).cause = s.cause ∧ (drawAndEmit convert s).config = s.config ∧
    (drawAndEmit convert s).results = s.results ++ [convert (drawWord s)] ∧
    (drawAndEmit convert s).index.toNat ≤ 312 ∧
    ((drawAndEmit convert s).twists = s.twists ∨
      ((drawAndEmit convert s).twists = s.twists + 1 ∧ (drawAndEmit convert s).index = 1#9)) := by
  obtain ⟨hseeded, hfault, hcause, hconfig, hresults, -, -, htwists⟩ := drawReady_frame s
  have hlt : (drawReady s).index.toNat < 312 := refill_index_lt _
  refine ⟨hseeded, hfault, hcause, hconfig, by rw [drawAndEmit, emit_results, drawState, advance_results, hresults], ?_,
    htwists.imp id fun ⟨htwist, hindex⟩ => ⟨htwist, congrArg (· + 1#9) hindex⟩⟩
  rw [drawAndEmit, emit_index, drawState, advance_index, BitVec.toNat_add]
  exact (Nat.mod_le _ _).trans hlt

/-! ### The invariant (R26, R27, R151) -/

/-- Settles O12, by evaluating the invariant on the reset values. -/
theorem resetMeetsTheInvariant : Obligations.ResetMeetsTheInvariant := by
  unfold Obligations.ResetMeetsTheInvariant
  decide

/-- Settles O14: each is the value `State.reset` is given. -/
theorem resetValues : Obligations.ResetValues := ⟨rfl, rfl, rfl, rfl, rfl⟩

theorem causeCode_ne_zero (c : FaultCause) : causeCode c ≠ 0#4 := by cases c <;> decide

theorem causeCode_toNat_le (c : FaultCause) : (causeCode c).toNat ≤ 3 := by cases c <;> decide

/-- Settles O13: a seeding sets the cursor to 0 and a draw leaves it at 312 at most; a fault sets FAULT and CAUSE
together, and a reset clears both. -/
theorem stepKeepsTheInvariant : Obligations.StepKeepsTheInvariant := by
  rintro s t ⟨hindex, hcause, hcauseLe, hconfig⟩ h
  cases step_update h with
  | idle => exact ⟨hindex, hcause, hcauseLe, hconfig⟩
  | discard rest => exact ⟨hindex, hcause, hcauseLe, hconfig⟩
  | reset hmem => exact ⟨by simp, by simp, by simp, hconfig⟩
  | fault c rest => exact ⟨hindex, by simp [causeCode_ne_zero], causeCode_toNat_le c, hconfig⟩
  | seed v rest => exact ⟨by simp, hcause, hcauseLe, hconfig⟩
  | seedArray keys rest => exact ⟨by simp, hcause, hcauseLe, hconfig⟩
  | draw i rest convert hdecode hi =>
    obtain ⟨-, hfault', hcause', hconfig', -, hindex', -⟩ := drawAndEmit_frame convert (takeInput rest s)
    exact ⟨fun _ => hindex', by rw [hfault', hcause']; exact hcause, by rw [hcause']; exact hcauseLe,
      by rw [hconfig']; exact hconfig⟩

/-! ### The configuration, seeded, the results and the twist counter -/

/-- Settles O16: no update writes the configuration. -/
theorem stepNeverWritesTheConfiguration : Obligations.StepNeverWritesTheConfiguration := by
  intro s t h
  cases step_update h with
  | draw i rest convert hdecode hi =>
    obtain ⟨-, -, -, hconfig, -⟩ := drawAndEmit_frame convert (takeInput rest s)
    exact hconfig
  | _ => rfl

/-- Settles O17: every other update keeps seeded or sets it. -/
theorem seededClearedOnlyByReset : Obligations.SeededClearedOnlyByReset := by
  intro s t h hs ht
  have hkept (h : t.seeded = s.seeded) : False := by simp [h, hs] at ht
  have hset (h : t.seeded = true) : False := by simp [h] at ht
  cases step_update h with
  | idle => exact (hkept rfl).elim
  | discard rest => exact (hkept rfl).elim
  | reset hmem => exact ⟨hmem, rfl⟩
  | fault c rest => exact (hkept rfl).elim
  | seed v rest => exact (hset rfl).elim
  | seedArray keys rest => exact (hset rfl).elim
  | draw i rest convert hdecode hi =>
    obtain ⟨hseeded, -⟩ := drawAndEmit_frame convert (takeInput rest s)
    exact (hset hseeded).elim

/-- Settles O18: only a draw writes the results, and it appends its one word. -/
theorem stepEmitsAtMostOneWord : Obligations.StepEmitsAtMostOneWord := by
  intro s t h
  cases step_update h with
  | draw i rest convert hdecode hi =>
    obtain ⟨-, -, -, -, hresults, -⟩ := drawAndEmit_frame convert (takeInput rest s)
    exact .inr ⟨_, i, rest, hresults, hdecode, by rw [hi]; rfl⟩
  | _ => exact .inl rfl

/-- Settles O19: a reset is told by the count of resets, and of the other updates only a draw can twist. -/
theorem twistRunsOnlyInsideADraw : Obligations.TwistRunsOnlyInsideADraw := by
  intro s t h hepoch htwists
  cases step_update h with
  | reset hmem => exact absurd hepoch (Nat.succ_ne_self _)
  | draw i rest convert hdecode hi =>
    obtain ⟨-, -, -, -, -, -, hkept | ⟨htwist, hindex⟩⟩ := drawAndEmit_frame convert (takeInput rest s)
    · exact absurd hkept htwists
    · exact ⟨i, rest, hdecode, by rw [hi]; rfl, htwist, hindex⟩
  | _ => exact absurd rfl htwists

/-! ### The unspecified contents of S and index (R31) -/

/-- The same state with other contents of S and index. -/
def withContents (S : StateArray) (x : BitVec 9) (s : State) : State := { s with S := S, index := x }

/-- On a never-seeded engine the contents decide nothing of what a command does: a command that seeds overwrites them,
and any other leaves them. -/
theorem effect_withContents (i : Instr) (S : StateArray) (x : BitVec 9) {s : State} (hs : s.seeded = false) :
    effect i (withContents S x s) = effect i s ∨
      ((effect i s).seeded = false ∧ effect i (withContents S x s) = withContents S x (effect i s)) := by
  have hready : drawReady (withContents S x s) = drawReady s := by
    rw [drawReady, drawReady, ensureSeeded_of_unseeded s hs, ensureSeeded_of_unseeded (withContents S x s) hs]
    rfl
  have hdraw {convert : Word → Word} (h : resultConversion i = some convert) :
      effect i (withContents S x s) = effect i s := by
    rw [effect_of_resultConversion h]
    simp only [drawAndEmit, drawWord, drawState, hready]
  cases i with
  | seed v => exact .inl rfl
  | seedArray keys =>
    have hconfig : (withContents S x s).config = s.config := rfl
    rcases hk : checkKeys s.config keys with _ | _ | _
    · exact .inr (by simp only [effect, hconfig, hk]; exact ⟨hs, rfl⟩)
    · exact .inr (by simp only [effect, hconfig, hk]; exact ⟨hs, rfl⟩)
    · exact .inl (by simp only [effect, hconfig, hk]; rfl)
  | _ => exact .inl (hdraw rfl)

/-- The contents decide nothing of which words are taken either. -/
theorem fetch_withContents_run {s u : State} {i : Instr} (S : StateArray) (x : BitVec 9) (h : fetch s = .run i u) :
    fetch (withContents S x s) = .run i (withContents S x u) := by
  obtain ⟨hs, rest, hdecode, rfl⟩ := fetch_run h
  have hdecode' : decode (withContents S x s).input = .ok (i, rest) := hdecode
  rw [fetch_inService (show (withContents S x s).InService from hs)]
  simp only [fetchReady, hdecode']
  rfl

/-- A step done with no command run leaves the contents too, or is a reset, which overwrites them. -/
theorem fetch_withContents_done {s t : State} (S : StateArray) (x : BitVec 9) (h : fetch s = .done t) :
    ∃ t', fetch (withContents S x s) = .done t' ∧ (t' = t ∨ (t.seeded = s.seeded ∧ t' = withContents S x t)) := by
  have hinput : (withContents S x s).input = s.input := rfl
  cases hf : s.fault with
  | true =>
    rw [fetch_faulted hf] at h
    rw [fetch_faulted (show (withContents S x s).fault = true from hf)]
    unfold fetchFaulted at h ⊢
    rw [hinput]
    split at h <;> injection h with h <;> subst h
    · exact ⟨_, rfl, .inr ⟨rfl, rfl⟩⟩
    · exact ⟨_, rfl, .inl rfl⟩
    · exact ⟨_, rfl, .inr ⟨rfl, rfl⟩⟩
    · exact ⟨_, rfl, .inr ⟨rfl, rfl⟩⟩
  | false =>
    rw [fetch_inService hf] at h
    rw [fetch_inService (show (withContents S x s).InService from hf)]
    unfold fetchReady at h ⊢
    rw [hinput]
    split at h <;> cases h
    · exact ⟨_, rfl, .inr ⟨rfl, rfl⟩⟩
    · exact ⟨_, rfl, .inr ⟨rfl, rfl⟩⟩
    · exact ⟨_, rfl, .inr ⟨rfl, rfl⟩⟩
    · exact ⟨_, rfl, .inr ⟨rfl, rfl⟩⟩
    · exact ⟨_, rfl, .inl rfl⟩

/-- Settles O20: the fetch and the command it hands over leave the contents as they are, or leave none of them. -/
theorem unspecifiedStateDecidesNothing : Obligations.UnspecifiedStateDecidesNothing := by
  intro s t S' x hs h
  change ∃ t', step (withContents S' x s) = .next t' ∧ (t' = t ∨ (t.seeded = false ∧ t' = withContents S' x t))
  obtain ⟨i, u, hrun, hexec⟩ | hdone := step_cases h
  · have hrun' := fetch_withContents_run S' x hrun
    obtain ⟨hf, rest, -, rfl⟩ := fetch_run hrun
    rw [exec_inService i (takeInput_inService rest hf)] at hexec
    injection hexec with hexec
    subst hexec
    refine ⟨effect i (withContents S' x (takeInput rest s)), ?_, effect_withContents i S' x hs⟩
    simp only [step, hrun']
    exact exec_inService i hf
  · obtain ⟨t', hdone', h'⟩ := fetch_withContents_done S' x hdone
    refine ⟨t', by simp only [step, hdone'], h'.imp id fun ⟨hseeded, ht⟩ => ⟨hseeded.trans hs, ht⟩⟩

end Sys2Proof.Machine

/-! PROOF. Properties of the seedings (40_seeding.md, 41_twist.md section 2). -/

namespace Sys2Proof.Machine

/-- Settles O27: the in-place loop leaves the walked vector, whatever S held before. -/
theorem seedMatchesInPlaceLoop : Obligations.SeedMatchesInPlaceLoop := by
  intro v s hs
  rw [exec_seed_inService v s hs, inPlaceScalarSeed_eq]
  rfl

/-- Settles O29: the vector is `arrayWords keys`, which reads no earlier state. -/
theorem seedArrayDependsOnTheKeysAlone : Obligations.SeedArrayDependsOnTheKeysAlone := fun keys hne =>
  ⟨arrayWords keys, rfl, fun s hs hle => exec_seedArray_inService keys s hs hne hle⟩

/-! ### The cursor of array seeding (R84) -/

/-- One step moves the cursor on, and from 311 back to 1. -/
theorem inPlaceUpdate_position (f : Word → Word → Word) (S : StateArray) (k : Nat) (hk : k < 311) :
    (inPlaceUpdate f S (1 + k)).2 = 1 + (k + 1) % 311 := by
  rw [inPlaceUpdate, wrapCopy]
  split
  · omega
  · show 1 + k + 1 = _
    omega

theorem inPlaceKeyLoop_position (keys : List Word) (n k j : Nat) (S : StateArray) (hk : k < 311) :
    (inPlaceKeyLoop keys n (1 + k) j S).2 = 1 + (k + n) % 311 := by
  induction n generalizing k j S with
  | zero => rw [Nat.add_zero, Nat.mod_eq_of_lt hk]; rfl
  | succ n ih =>
    rw [inPlaceKeyLoop_succ, inPlaceUpdate_position _ _ _ hk, ih _ _ _ (Nat.mod_lt _ (by decide)), Nat.mod_add_mod,
      Nat.add_right_comm, Nat.add_assoc]

theorem inPlaceCloseLoop_position (n k : Nat) (S : StateArray) (hk : k < 311) :
    (inPlaceCloseLoop n (1 + k) S).2 = 1 + (k + n) % 311 := by
  induction n generalizing k S with
  | zero => rw [Nat.add_zero, Nat.mod_eq_of_lt hk]; rfl
  | succ n ih =>
    rw [inPlaceCloseLoop_succ, inPlaceUpdate_position _ _ _ hk, ih _ _ (Nat.mod_lt _ (by decide)), Nat.mod_add_mod,
      Nat.add_right_comm, Nat.add_assoc]

/-- The second loop takes as many steps as there are positions. -/
theorem inPlaceCloseLoop_311_position (k : Nat) (S : StateArray) (hk : k < 311) :
    (inPlaceCloseLoop 311 (1 + k) S).2 = 1 + k := by
  rw [inPlaceCloseLoop_position _ _ _ hk, Nat.add_mod_right, Nat.mod_eq_of_lt hk]

/-- Settles O30: both in-place loops step from position to position, and the model's cursor stands where they do. -/
theorem arraySeedCursorPositions : Obligations.ArraySeedCursorPositions := by
  intro keys S
  have hkeys (S : StateArray) :
      (inPlaceKeyLoop keys (max 312 keys.length) 1 0 S).2 = 1 + max 312 keys.length % 311 := by
    have := inPlaceKeyLoop_position keys (max 312 keys.length) 0 0 S (by decide)
    rwa [Nat.zero_add] at this
  have hfirst := keyLoop_standsAt keys (max 312 keys.length) 0 bootCursor_standsAt
  refine ⟨hkeys S, fun i hpos hle => ?_, by rw [hfirst.position, hkeys], ?_⟩
  · obtain ⟨k, rfl⟩ := Nat.exists_eq_add_of_le hpos
    exact inPlaceCloseLoop_311_position k S (by omega)
  · rw [arrayCursor, (closeLoop_standsAt 311 hfirst).position, hkeys]
    exact inPlaceCloseLoop_311_position _ _ (Nat.mod_lt _ (by decide))

/-! ### The effective state a seeding leaves (R106) -/

/-- A zero word is followed by a word that is its own position (R80). -/
theorem scalarNext_zero (i : Nat) : scalarNext 0#64 i = BitVec.ofNat 64 i := by simp [scalarNext, fold62]

/-- S[1] or S[2] is not 0: where S[1] is 0, S[2] is 2. -/
theorem scalarWords_ne_zero (v : Word) : ∃ (k : Nat) (_ : k < 311), (scalarWords v)[k + 1] ≠ 0#64 := by
  by_cases hone : (scalarWords v)[1] = 0#64
  · refine ⟨1, by decide, ?_⟩
    rw [scalarWords_succ v 1 (by decide), hone, scalarNext_zero]
    decide
  · exact ⟨0, by decide, hone⟩

/-- Settles O31: SEED's words S[1] and S[2] are not both 0, and SEED_ARRAY writes ARR_FINAL to S[0]. -/
theorem noSeedingLeavesAZeroState : Obligations.NoSeedingLeavesAZeroState := by
  constructor
  · intro v s t hs h
    rw [exec_seed_inService v s hs] at h
    cases h
    exact scalarWords_ne_zero v
  · intro keys s t hs h hfault
    rw [exec_inService _ hs] at h
    injection h with h
    subst h
    rcases hk : checkKeys s.config keys with _ | _ | _
    · simp [effect, hk] at hfault
    · simp [effect, hk] at hfault
    · simp only [effect, hk, arraySeed_S]
      exact (by decide : arrFinal.getLsbD 63 = true)

end Sys2Proof.Machine

/-! PROOF. Properties of Mix and Twist (41_twist.md): which bits they read, and that they are linear. -/

namespace Sys2Proof.Machine

/-- Settles O33: the in-place loop leaves the closed form of R102, range by range. -/
theorem inPlaceTwistClosedForm : Obligations.InPlaceTwistClosedForm := fun old =>
  have h := inPlaceTwist_isTwistOf old
  ⟨h.low, h.high, h.top⟩

/-! ### Mix (R101) -/

/-- The masks of Mix join bits 63..31 of one word to bits 30..0 of the other. -/
theorem maskJoin_eq_append (u l : Word) :
    (u &&& upperMask) ||| (l &&& lowerMask) = u.extractLsb' 31 33 ++ l.extractLsb' 0 31 := by
  have hupper : upperMask = BitVec.allOnes 64 <<< 31 := by decide
  have hlower : lowerMask = BitVec.allOnes 64 >>> 33 := by decide
  apply BitVec.eq_of_getLsbD_eq
  intro k hk
  rw [hupper, hlower, BitVec.getLsbD_append]
  simp only [BitVec.getLsbD_or, BitVec.getLsbD_and, BitVec.getLsbD_shiftLeft, BitVec.getLsbD_ushiftRight,
    BitVec.getLsbD_allOnes, BitVec.getLsbD_extractLsb']
  split
  next hlow => simp [hlow]; omega
  next hhigh =>
    have hout : ¬ 33 + k < 64 := by omega
    have hin : k - 31 < 33 ∧ k - 31 < 64 := by omega
    simp [hhigh, hk, hout, hin, Nat.add_sub_cancel' (Nat.le_of_not_lt hhigh)]

/-- The word Mix makes of its two arguments before the shift (R101). -/
def mixJoin (u l : Word) : Word := u.extractLsb' 31 33 ++ l.extractLsb' 0 31

theorem mixJoin_getLsbD_zero (u l : Word) : (mixJoin u l).getLsbD 0 = l.getLsbD 0 := by
  rw [mixJoin, BitVec.getLsbD_append, if_pos (by decide), BitVec.getLsbD_extractLsb']
  rfl

theorem mix_eq_mixJoin (u l : Word) :
    mix u l = (mixJoin u l >>> 1) ^^^ (if l.getLsbD 0 then matrixA else 0#64) := by
  have hjoin : (u &&& upperMask) ||| (l &&& lowerMask) = mixJoin u l := maskJoin_eq_append u l
  have hbit : mixJoin u l &&& 1#64 = 1#64 ↔ l.getLsbD 0 = true := by
    rw [BitVec.and_one_eq_setWidth_ofBool_getLsbD, mixJoin_getLsbD_zero]
    cases l.getLsbD 0 <;> simp
  simp only [mix, hjoin, hbit]

/-- Settles O34: the masks of Mix join the two words, and the bit tested is bit 0 of the second. -/
theorem mixJoinsTheWords : Obligations.MixJoinsTheWords := mix_eq_mixJoin

/-- Mix reads bits 63..31 of its first word only. -/
theorem mix_congr_left {u u' : Word} (l : Word) (h : u >>> 31 = u' >>> 31) : mix u l = mix u' l := by
  have hbits : u.extractLsb' 31 33 = u'.extractLsb' 31 33 := by
    rw [← BitVec.setWidth_ushiftRight_eq_extractLsb, h, BitVec.setWidth_ushiftRight_eq_extractLsb]
  rw [mix_eq_mixJoin, mix_eq_mixJoin, mixJoin, mixJoin, hbits]

theorem mixJoin_xor (u u' l l' : Word) : mixJoin (u ^^^ u') (l ^^^ l') = mixJoin u l ^^^ mixJoin u' l' := by
  simp only [mixJoin, BitVec.extractLsb'_xor]
  exact BitVec.xor_append.symm

theorem mix_xor (u u' l l' : Word) : mix (u ^^^ u') (l ^^^ l') = mix u l ^^^ mix u' l' := by
  have hmatrix (a b : Bool) : (if (a ^^ b) then matrixA else 0#64) =
      (if a then matrixA else 0#64) ^^^ (if b then matrixA else 0#64) := by
    cases a <;> cases b <;> simp
  simp only [mix_eq_mixJoin, mixJoin_xor, BitVec.ushiftRight_xor_distrib, BitVec.getLsbD_xor, hmatrix]
  ac_rfl

/-! ### Twist (R104, R105) -/

theorem isTwistOf_xor {new new' old old' : StateArray} (h : IsTwistOf new old) (h' : IsTwistOf new' old') :
    IsTwistOf (Vector.zipWith (fun a b => a ^^^ b) new new') (Vector.zipWith (fun a b => a ^^^ b) old old') where
  low k hk := by
    simp only [Vector.getElem_zipWith, h.low k hk, h'.low k hk, mix_xor]
    ac_rfl
  high k hk := by
    simp only [Vector.getElem_zipWith, h.high k hk, h'.high k hk, mix_xor]
    ac_rfl
  top := by
    simp only [Vector.getElem_zipWith, h.top, h'.top, mix_xor]
    ac_rfl

theorem isTwistOf_zero : IsTwistOf (Vector.replicate 312 0#64) (Vector.replicate 312 0#64) := by
  have hmix : mix 0#64 0#64 = 0#64 := by decide
  constructor <;> simp [hmix]

/-- Settles O35: the XOR of two twists has the closed form of the twist of the XOR, and the zero vector has its own. -/
theorem twistIsLinear : Obligations.TwistIsLinear :=
  ⟨fun A B => (twistWords_isTwistOf _).unique (isTwistOf_xor (twistWords_isTwistOf A) (twistWords_isTwistOf B)),
    (twistWords_isTwistOf _).unique isTwistOf_zero⟩

theorem getElem_eq_of_sameEffective {A B : StateArray} (h : SameEffective A B) (k : Nat) (hk : k + 1 < 312) :
    A[k + 1] = B[k + 1] := by
  obtain ⟨-, htail⟩ := h
  have := congrArg (·[k]?) htail
  simpa [hk] using this

theorem twistWords_congr {A B : StateArray} (h : SameEffective A B) : twistWords A = twistWords B := by
  have htail := getElem_eq_of_sameEffective h
  have hmix (k : Nat) (hk : k < 311) : mix A[k] A[k + 1] = mix B[k] B[k + 1] := by
    cases k with
    | zero => rw [htail 0 (by decide)]; exact mix_congr_left _ h.1
    | succ k => rw [htail k (by omega), htail (k + 1) (by omega)]
  have hA := twistWords_isTwistOf A
  refine IsTwistOf.unique ⟨fun k hk => ?_, fun k hk => ?_, ?_⟩ (twistWords_isTwistOf B)
  · rw [hA.low k hk, hmix k (by omega), htail (k + 155) (by omega)]
  · rw [hA.high k hk, hmix (k + 156) (by omega)]
  · rw [hA.top, htail 310 (by decide)]

end Sys2Proof.Machine

/-! PROOF. Draws (42_output.md): tempering, what a draw does at each cursor, and what it does not depend on. -/

namespace Sys2Proof.Machine

/-! ### Tempering (R121) -/

/-- Settles O37: the cascade is `temper` as it is defined, and the example is computed. -/
theorem temperingCascade : Obligations.TemperingCascade := by
  refine ⟨?_, by decide⟩
  rintro y0 y1 y2 y3 rfl rfl rfl
  rfl

/-- Linear over GF(2), with XOR as the sum of two words. -/
def XorLinear (f : Word → Word) : Prop := ∀ a b, f (a ^^^ b) = f a ^^^ f b

theorem XorLinear.shiftRight (n : Nat) : XorLinear (· >>> n) := fun a b => BitVec.ushiftRight_xor_distrib a b n

theorem XorLinear.shiftLeft (n : Nat) : XorLinear (· <<< n) := fun a b => BitVec.shiftLeft_xor_distrib a b n

theorem XorLinear.mask {f : Word → Word} (h : XorLinear f) (m : Word) : XorLinear fun y => f y &&& m := by
  intro a b
  simp only [h a b]
  ext k hk
  simp [Bool.and_xor_distrib_right]

theorem XorLinear.xorSelf {f : Word → Word} (h : XorLinear f) : XorLinear fun y => y ^^^ f y := by
  intro a b
  simp only [h a b]
  ac_rfl

theorem XorLinear.comp {f g : Word → Word} (hf : XorLinear f) (hg : XorLinear g) : XorLinear fun y => f (g y) := by
  intro a b
  simp only [hg a b, hf (g a) (g b)]

theorem xorLinear_temper : XorLinear temper :=
  have h1 := ((XorLinear.shiftRight 29).mask temperB1).xorSelf
  have h2 := ((XorLinear.shiftLeft 17).mask temperB2).xorSelf
  have h3 := ((XorLinear.shiftLeft 37).mask temperB3).xorSelf
  have h4 := (XorLinear.shiftRight 43).xorSelf
  h4.comp (h3.comp (h2.comp h1))

/-- Settles O38: each of the four steps is linear. -/
theorem temperingIsLinear : Obligations.TemperingIsLinear := ⟨xorLinear_temper, by decide⟩

/-! ### A draw, by the state it reads its word from (R120) -/

/-- The word a draw returns is the tempered word at the cursor of the state that is ready for it. -/
theorem drawAndEmit_eq (convert : Word → Word) (s : State) :
    drawAndEmit convert s =
      emit (convert (temper (readWord (drawReady s).S (drawReady s).index.toNat))) (advance (drawReady s)) := by
  have hlt : (drawReady s).index.toNat < 312 := refill_index_lt _
  rw [readWord_eq_getElem _ _ hlt]
  rfl

theorem exec_draw {i : Instr} {convert : Word → Word} {s : State} (hi : resultConversion i = some convert)
    (hs : s.InService) : exec i s = .next (drawAndEmit convert s) := by
  rw [exec_inService i hs, effect_of_resultConversion hi]

theorem drawReady_exhausted {s : State} (hseeded : s.seeded = true) (h : s.Exhausted) :
    drawReady s = { twist s with index := 0#9 } := by
  rw [drawReady, ensureSeeded_of_seeded s hseeded, refill_exhausted s h]

theorem drawReady_within {s : State} (hseeded : s.seeded = true) (h : ¬ s.Exhausted) : drawReady s = s := by
  rw [drawReady, ensureSeeded_of_seeded s hseeded, refill_within s h]

/-- Settles O40: such a cursor is not exhausted, so the draw reads its word from the state itself. -/
theorem drawInsideAGeneration : Obligations.DrawInsideAGeneration := by
  intro s i convert hi hs hseeded hlt hpos
  have hready : drawReady s = s := drawReady_within hseeded (by unfold State.Exhausted; omega)
  rw [exec_draw hi hs, drawAndEmit_eq, hready, readWord_eq_getElem _ _ hlt]
  rfl

/-- Settles O41: the draw twists first and reads its word at cursor 0. -/
theorem drawStartsAGeneration : Obligations.DrawStartsAGeneration := by
  intro s i convert hi hs hseeded h
  have hword (S : StateArray) : readWord S (0#9).toNat = S[0] := readWord_eq_getElem S 0 (by decide)
  rw [exec_draw hi hs, drawAndEmit_eq, drawReady_exhausted hseeded h, hword, twist, twistWords_eq_inPlaceTwist]
  generalize inPlaceTwist s.S = S'
  rfl

/-- Settles O36: the two twists leave the same vector, and the rest of the two states is the same. -/
theorem lowBitsOfTheFirstWordNeverMatter : Obligations.LowBitsOfTheFirstWordNeverMatter := by
  intro s S' i hi hs hseeded h hsame
  obtain ⟨convert, hi⟩ := Option.isSome_iff_exists.1 hi
  have htwist : twist { s with S := S' } = twist s := by simp only [twist, twistWords_congr hsame]
  rw [exec_draw hi hs, exec_draw hi (show State.InService { s with S := S' } from hs), drawAndEmit_eq, drawAndEmit_eq,
    drawReady_exhausted hseeded h, drawReady_exhausted (show State.seeded { s with S := S' } = true from hseeded) h,
    htwist]

/-! ### The default seed (R131) -/

/-- A draw on a never-seeded engine seeds it as SEED 5489 does (R120). -/
theorem drawAndEmit_scalarSeed_default (convert : Word → Word) {s : State} (h : s.seeded = false) :
    drawAndEmit convert (scalarSeed defaultSeed s) = drawAndEmit convert s := by
  have hready : drawReady (scalarSeed defaultSeed s) = drawReady s := by
    rw [drawReady, drawReady, ensureSeeded_of_unseeded s h, ensureSeeded_of_seeded _ rfl]
  rw [drawAndEmit_eq, drawAndEmit_eq, hready]

/-- Settles O42: drawing after that seeding is drawing with the engine's own. -/
theorem neverSeededDrawIsDefaultSeeded : Obligations.NeverSeededDrawIsDefaultSeeded := by
  intro s i hi hs hseeded
  obtain ⟨convert, hi⟩ := Option.isSome_iff_exists.1 hi
  have hu : (scalarSeed defaultSeed s).InService := hs
  refine ⟨scalarSeed defaultSeed s, drawAndEmit convert s, exec_seed_inService _ s hs, ?_, exec_draw hi hs⟩
  rw [exec_draw hi hu, drawAndEmit_scalarSeed_default convert hseeded]

/-! ### The conversion (R123, R128, R129) -/

/-- A draw appends its one word, converted, to the results (R66, R129). -/
theorem drawAndEmit_results (convert : Word → Word) (s : State) :
    (drawAndEmit convert s).results = s.results ++ [convert (drawWord s)] := by
  obtain ⟨-, -, -, -, hresults, -⟩ := drawAndEmit_frame convert s
  exact hresults

/-- Settles O43: the conversion is applied to the drawn word, after the draw. -/
theorem commandKindChangesOnlyTheConversion : Obligations.CommandKindChangesOnlyTheConversion := by
  intro s i convert hi hs
  refine ⟨drawWord s, _, exec_draw rfl hs, drawAndEmit_results _ s, ?_⟩
  rw [exec_draw hi hs, ← drawAndEmit_results]
  rfl

theorem convertI63_toNat (x : Word) : (convertI63 x).toNat = x.toNat / 2 := by
  rw [convertI63, BitVec.toNat_ushiftRight, Nat.shiftRight_eq_div_pow, pow_one]

/-- The shift leaves bit 63 at 0, so the signed reading is the same number. -/
theorem convertI63_toInt (x : Word) : (convertI63 x).toInt = ((x.toNat / 2 : Nat) : Int) := by
  have hlt := x.isLt
  rw [BitVec.toInt_eq_toNat_of_lt (by rw [convertI63_toNat]; omega), convertI63_toNat]

/-- Settles O44: the conversion of NEXT_I63 halves the word. -/
theorem i63HalvesTheWord : Obligations.I63HalvesTheWord := by
  intro s hs
  have hsigned := convertI63_toInt (drawWord s)
  refine ⟨drawWord s, convertI63 (drawWord s), _, _, exec_draw rfl hs, drawAndEmit_results _ s, exec_draw rfl hs,
    drawAndEmit_results _ s, convertI63_toNat _, hsigned, ?_⟩
  rw [hsigned]
  exact Int.natCast_nonneg _

end Sys2Proof.Machine

/-! PROOF. Runs of commands (42_output.md section 4): the schedule of the twists, and the default seed of a program. -/

namespace Sys2Proof.Machine

/-! ### The schedule (R27, R130) -/

/-- The number of twists that `d` draws from a fresh seeding run: one for each 312 draws begun (R130). -/
def generations (d : Nat) : Nat := (d + 311) / 312

/-- What `d` draws from the freshly seeded state `s` leave: the number of twists, and a cursor that counts the draws of
the last generation (R27, R130). -/
structure AfterDraws (s : State) (d : Nat) (t : State) : Prop where
  inService : t.InService
  seeded : t.seeded = true
  S : t.S = inPlaceTwist^[generations d] s.S
  twists : t.twists = s.twists + generations d
  index : t.index.toNat = d - 312 * (generations d - 1)
  results : t.results.length = s.results.length + d

theorem afterDraws_zero {s : State} (hs : s.InService) (hseeded : s.seeded = true) (hindex : s.index = 0#9) :
    AfterDraws s 0 s :=
  ⟨hs, hseeded, rfl, rfl, by rw [hindex]; rfl, rfl⟩

/-- One more draw keeps the schedule, and returns word d mod 312 of generation d div 312 + 1 (R130). -/
theorem AfterDraws.draw {s t : State} {d : Nat} {i : Instr} {convert : Word → Word} (h : AfterDraws s d t)
    (hi : resultConversion i = some convert) :
    ∃ u, exec i t = .next u ∧ AfterDraws s (d + 1) u ∧
      u.results = t.results ++ [convert (temper (readWord u.S (d % 312)))] := by
  obtain ⟨hs, hseeded, hS, htwists, hindex, hresults⟩ := h
  by_cases hlast : t.Exhausted
  · have hgen : generations (d + 1) = generations d + 1 ∧ d % 312 = 0 := by
      unfold generations State.Exhausted at *
      omega
    refine ⟨_, drawStartsAGeneration t i convert hi hs hseeded hlast, ⟨hs, hseeded, ?_, ?_, ?_, ?_⟩, ?_⟩
    · rw [hgen.1, Function.iterate_succ_apply', ← hS]
    · rw [hgen.1, htwists, Nat.add_assoc]
    · show 1 = _
      unfold generations at *
      omega
    · rw [List.length_append, hresults]
      rfl
    · rw [hgen.2, readWord_eq_getElem _ 0 (by decide)]
  · have hpos : t.index.toNat < 312 ∧ 1 ≤ t.index.toNat := by unfold State.Exhausted at hlast; omega
    have hgen : generations (d + 1) = generations d ∧ d % 312 = t.index.toNat := by
      unfold generations at *
      omega
    refine ⟨_, drawInsideAGeneration t i convert hi hs hseeded hpos.1 hpos.2, ⟨hs, hseeded, ?_, ?_, ?_, ?_⟩, ?_⟩
    · rw [hgen.1, ← hS]
    · rw [hgen.1, htwists]
    · show (t.index + 1#9).toNat = _
      rw [hgen.1, BitVec.toNat_add, BitVec.toNat_ofNat]
      unfold generations at *
      omega
    · rw [List.length_append, hresults]
      rfl
    · rw [hgen.2, readWord_eq_getElem _ _ hpos.1]

/-- A run of draws of any kinds keeps the schedule. -/
theorem AfterDraws.run {s t : State} {d : Nat} {draws : List Instr} (h : AfterDraws s d t)
    (hdraws : ∀ i ∈ draws, (resultConversion i).isSome) :
    ∃ u, runCommands draws t = .next u ∧ AfterDraws s (d + draws.length) u := by
  induction draws generalizing t d with
  | nil => exact ⟨t, rfl, h⟩
  | cons i draws ih =>
    obtain ⟨convert, hi⟩ := Option.isSome_iff_exists.1 (hdraws i List.mem_cons_self)
    obtain ⟨u, hexec, hu, -⟩ := h.draw hi
    obtain ⟨v, hrun, hv⟩ := ih hu fun j hj => hdraws j (List.mem_cons_of_mem _ hj)
    refine ⟨v, ?_, ?_⟩
    · simp only [runCommands, hexec, hrun]
    · rwa [List.length_cons, Nat.add_comm draws.length, ← Nat.add_assoc]

theorem run_from_seeding {s : State} {draws : List Instr} (hs : s.InService) (hseeded : s.seeded = true)
    (hindex : s.index = 0#9) (hdraws : ∀ i ∈ draws, (resultConversion i).isSome) :
    ∃ t, runCommands draws s = .next t ∧ AfterDraws s draws.length t := by
  have := (afterDraws_zero hs hseeded hindex).run hdraws
  rwa [Nat.zero_add] at this

/-- Settles O51: the schedule after a run, its counts written from d - 1. -/
theorem twistSchedule : Obligations.TwistSchedule := by
  intro s draws hs hseeded hindex hne hdraws
  obtain ⟨t, hrun, ht⟩ := run_from_seeding hs hseeded hindex hdraws
  have hpos : 0 < draws.length := List.length_pos_iff.2 hne
  have hgen : generations draws.length = (draws.length - 1) / 312 + 1 := by unfold generations; omega
  refine ⟨t, hrun, ?_, by rw [ht.twists, hgen], by rw [ht.S, hgen], ht.results⟩
  rw [ht.index, hgen]
  omega

/-- Settles O52: the draw after a run that keeps the schedule. -/
theorem drawReadsItsGeneration : Obligations.DrawReadsItsGeneration := by
  intro s draws i convert hs hseeded hindex hdraws hi
  obtain ⟨t, hrun, ht⟩ := run_from_seeding hs hseeded hindex hdraws
  obtain ⟨u, hexec, hu, hresults⟩ := ht.draw hi
  have hgen : generations (draws.length + 1) = draws.length / 312 + 1 := by unfold generations; omega
  exact ⟨t, u, hrun, hexec, by rw [hresults, hu.S, hgen]⟩

/-! ### SEED_DEFAULT before a program (R69) -/

/-- `u` is `s`, or `s` is never-seeded and `u` is `s` with the default seeding that its first draw would do. -/
def UpToDefaultSeed (s u : State) : Prop := u = s ∨ (s.seeded = false ∧ u = scalarSeed defaultSeed s)

/-- A command does the same to both, or keeps them apart by the default seeding alone. -/
theorem effect_upToDefaultSeed (i : Instr) {s u : State} (h : UpToDefaultSeed s u) :
    UpToDefaultSeed (effect i s) (effect i u) := by
  obtain rfl | ⟨hseeded, rfl⟩ := h
  · exact .inl rfl
  have hdraw {convert : Word → Word} (hi : resultConversion i = some convert) :
      UpToDefaultSeed (effect i s) (effect i (scalarSeed defaultSeed s)) := by
    rw [effect_of_resultConversion hi]
    exact .inl (drawAndEmit_scalarSeed_default convert hseeded)
  cases i with
  | seed v => exact .inl rfl
  | seedArray keys =>
    rcases hk : checkKeys s.config keys with _ | _ | _
    · simp only [effect, scalarSeed_config, hk]
      exact .inr ⟨hseeded, rfl⟩
    · simp only [effect, scalarSeed_config, hk]
      exact .inr ⟨hseeded, rfl⟩
    · simp only [effect, scalarSeed_config, hk]
      exact .inl rfl
  | _ => exact hdraw rfl

theorem UpToDefaultSeed.fault {s u : State} (h : UpToDefaultSeed s u) : u.fault = s.fault := by
  obtain rfl | ⟨-, rfl⟩ := h <;> rfl

theorem UpToDefaultSeed.results {s u : State} (h : UpToDefaultSeed s u) : u.results = s.results := by
  obtain rfl | ⟨-, rfl⟩ := h <;> rfl

theorem exec_upToDefaultSeed (i : Instr) {s t u : State} (h : UpToDefaultSeed s u) (hexec : exec i s = .next t) :
    ∃ v, exec i u = .next v ∧ UpToDefaultSeed t v := by
  cases hf : s.fault with
  | false =>
    rw [exec_inService i hf] at hexec
    injection hexec with hexec
    exact ⟨_, exec_inService i (h.fault.trans hf), hexec ▸ effect_upToDefaultSeed i h⟩
  | true =>
    rw [exec_faulted i hf] at hexec
    injection hexec with hexec
    exact ⟨u, exec_faulted i (h.fault.trans hf), hexec ▸ h⟩

theorem runCommands_upToDefaultSeed {cmds : List Instr} {s t u : State} (h : UpToDefaultSeed s u)
    (hrun : runCommands cmds s = .next t) : ∃ v, runCommands cmds u = .next v ∧ UpToDefaultSeed t v := by
  induction cmds generalizing s u with
  | nil =>
    injection hrun with hrun
    exact ⟨u, rfl, hrun ▸ h⟩
  | cons i cmds ih =>
    obtain ⟨s', hs'⟩ := exec_next i s
    obtain ⟨u', hu', h'⟩ := exec_upToDefaultSeed i h hs'
    simp only [runCommands, hs'] at hrun
    obtain ⟨v, hv, hv'⟩ := ih h' hrun
    exact ⟨v, by simp only [runCommands, hu', hv], hv'⟩

/-- Settles O53: the two runs stay the same up to the default seeding, which touches no result word. -/
theorem seedDefaultChangesNoResult : Obligations.SeedDefaultChangesNoResult := by
  intro s t cmds hs hseeded hrun
  have hseed : exec (.seed 5489#64) s = .next (scalarSeed defaultSeed s) := exec_seed_inService _ s hs
  obtain ⟨u, hu, h⟩ := runCommands_upToDefaultSeed (.inr ⟨hseeded, rfl⟩) hrun
  exact ⟨u, by simp only [runCommands, hseed, hu], h.results⟩

end Sys2Proof.Machine

/-! PROOF. The float results (42_output.md sections 3 and 4): the integer procedures, the ranges and the corner cases. -/

namespace Sys2Proof.Machine

/-- Settles O45: `x >> 11` is below 2^53, where the product and the procedure agree. -/
theorem variantAIntegerProcedure : Obligations.VariantAIntegerProcedure := convertF64A_eq_procedureA

/-- Settles O46, as O45 for RB. -/
theorem variantBIntegerProcedure : Obligations.VariantBIntegerProcedure := convertF64B_eq_procedureB

/-- Settles O47: `x >> 12` is below 2^52, so neither the sum nor the product is rounded. -/
theorem variantCIntegerProcedure : Obligations.VariantCIntegerProcedure := convertF64C_eq_procedureC

/-- Settles O50: RA is (2^52 + 1) * 2^-105, and the other three are powers of two. -/
theorem floatConstantsAreTheRoundedReciprocals : Obligations.FloatConstantsAreTheRoundedReciprocals := by
  have hexp : exponent recipA = 969 := by decide
  unfold Obligations.FloatConstantsAreTheRoundedReciprocals
  rw [unitsOf_recipA, unitsOf_recipB, unitsOf_recipC, unitsOf_half, hexp]
  decide +kernel

/-! ### The ranges (R128) -/

/-- The pattern of m * 2^-53: its exponent field and its significand. -/
theorem exactPattern_toNat {m : Nat} (h0 : m ≠ 0) (hm : m < 2 ^ 53) :
    (exactPattern m).toNat = (m.log2 + 969) * 2 ^ 52 + normalSignificand m := by
  have hle := log2_le_of_lt hm
  have hq := normalSignificand_bounds h0 hm
  rw [exactPattern, Nat.shiftLeft_eq m, ← normalSignificand, fields_eq_normal _ hq, BitVec.toNat_ofNat]
  omega

/-- m * 2^-53 lies from 2^-53 to 1 - 2^-53. -/
theorem exactPattern_range {m : Nat} (h0 : m ≠ 0) (hm : m < 2 ^ 53) :
    0x3CA0000000000000 ≤ (exactPattern m).toNat ∧ (exactPattern m).toNat ≤ 0x3FEFFFFFFFFFFFFF := by
  have hle := log2_le_of_lt hm
  have hq := normalSignificand_bounds h0 hm
  rw [exactPattern_toNat h0 hm]
  omega

/-- Just above 2^105 the product with RA's significand rounds down to it, so variant A reaches 1.0 and no more. -/
theorem roundShift_product_top {k : Nat} (hk : k < 2 ^ 53) (hlow : 2 ^ 105 ≤ k * (2 ^ 52 + 1)) :
    roundShift (k * (2 ^ 52 + 1)) 53 = 2 ^ 52 := by
  simp only [roundShift]
  split <;> omega

/-- Variant A's result for k = x >> 11 lies above 2^-54 and up to 1.0. -/
theorem f64mul_recipA_range {k : Nat} (h0 : k ≠ 0) (hk : k < 2 ^ 53) :
    0x0010000000000000 ≤ (f64mul (f64 k) recipA).toNat ∧ (f64mul (f64 k) recipA).toNat ≤ 0x3FF0000000000000 := by
  have hP : k * (2 ^ 52 + 1) ≠ 0 := by positivity
  have hlow : 52 ≤ (k * (2 ^ 52 + 1)).log2 := (Nat.le_log2 hP).2 (by omega)
  have hhigh : (k * (2 ^ 52 + 1)).log2 < 106 := (Nat.log2_lt hP).2 (by omega)
  obtain ⟨sh, hlog⟩ := Nat.exists_eq_add_of_le' hlow
  have hround := roundShift_bounds hlog
  have htop : sh = 53 → roundShift (k * (2 ^ 52 + 1)) sh = 2 ^ 52 := by
    rintro rfl
    exact roundShift_product_top hk (Nat.log2_eq_iff hP |>.1 hlog).1
  rw [f64mul_of_units (unitsOf_f64 hk) unitsOf_recipA rfl, roundUnits_mul_two_pow hlog (by omega), BitVec.toNat_ofNat]
  omega

/-- Settles O48: below, each variant gives +0 or a normal number; above, the largest k is rounded down to 1.0 in variant
A, and the other two are exact. -/
theorem floatResultsInRange : Obligations.FloatResultsInRange := by
  intro x
  have hk : (x >>> 11).toNat < 2 ^ 53 := x.toNat_ushiftRight_lt 11 (by decide)
  have hk' : (x >>> 12).toNat < 2 ^ 52 := x.toNat_ushiftRight_lt 12 (by decide)
  refine ⟨?_, ?_, ?_⟩
  · obtain h0 | h0 := Decidable.eq_or_ne (x >>> 11).toNat 0
    · have hzero : convertF64A x = 0#64 := by rw [convertF64A_eq_procedureA, procedureA, if_pos h0]
      simp [hzero]
    · obtain ⟨hlow, hhigh⟩ := f64mul_recipA_range h0 hk
      exact ⟨hhigh, .inr hlow⟩
  · rw [convertF64B_eq_procedureB, procedureB]
    split
    · simp
    next h0 =>
      obtain ⟨hlow, hhigh⟩ := exactPattern_range h0 hk
      exact ⟨hhigh, .inr (by omega)⟩
  · rw [convertF64C_eq_procedureC, procedureC]
    exact exactPattern_range (by omega) (by omega)

/-! ### The corner cases -/

/-- Settles O49: at each corner `x >> 11` or `x >> 12` is one number, for variant A's upper corner one of two. -/
theorem floatCornerCases : Obligations.FloatCornerCases := by
  have hshift (x : Word) (n : Nat) : (x >>> n).toNat = x.toNat / 2 ^ n := by
    rw [BitVec.toNat_ushiftRight, Nat.shiftRight_eq_div_pow]
  refine ⟨fun x hx => ?_, fun x hx => ?_, fun x hx => ?_, fun x hx => ?_⟩ <;> have hlt := x.isLt
  · have hk : (x >>> 11).toNat = 0 := by rw [hshift]; omega
    rw [convertF64A_eq_procedureA, convertF64B_eq_procedureB, hk]
    exact ⟨rfl, rfl⟩
  · have hk : (x >>> 12).toNat = 0 := by rw [hshift]; omega
    rw [convertF64C_eq_procedureC, hk]
    decide
  · have hk : (x >>> 11).toNat = 2 ^ 53 - 2 ∨ (x >>> 11).toNat = 2 ^ 53 - 1 := by rw [hshift]; omega
    have hk' : (x >>> 12).toNat = 2 ^ 52 - 1 := by rw [hshift]; omega
    rw [convertF64A_eq_procedureA, convertF64C_eq_procedureC, hk']
    obtain hk | hk := hk <;> rw [hk] <;> decide +kernel
  · have hk : (x >>> 11).toNat = 2 ^ 53 - 1 := by rw [hshift]; omega
    rw [convertF64B_eq_procedureB, hk]
    decide +kernel

end Sys2Proof.Machine

/-! PROOF. The assembly text (30_encoding.md section 4): what its commands and operands assemble to. -/

namespace Sys2Proof.Machine

theorem assembleCommand_wellFormed {c : AsmCommand} {i : Instr} (h : assembleCommand c = some i) : i.WellFormed := by
  cases c with
  | seed value =>
    rw [assembleCommand] at h
    split at h <;> cases h
    trivial
  | seedArray values =>
    rw [assembleCommand] at h
    split at h
    · split at h <;> cases h
      next hlen => exact hlen.2
    · cases h
  | _ => cases h; trivial

theorem assembleLine_wellFormed {l : AsmLine} {cmds : List Instr} (h : assembleLine l = some cmds) :
    ∀ i ∈ cmds, i.WellFormed := by
  rw [assembleLine] at h
  split at h
  · cases h
  · split at h <;> cases h
    next i hi =>
      intro j hj
      rw [List.eq_of_mem_replicate hj]
      exact assembleCommand_wellFormed hi

theorem assembleLines_wellFormed {ls : List AsmLine} {cmds : List Instr} (h : assembleLines ls = some cmds) :
    ∀ i ∈ cmds, i.WellFormed := by
  induction ls generalizing cmds with
  | nil => cases h; simp
  | cons l ls ih =>
    rw [assembleLines] at h
    split at h <;> cases h
    next is js hl hls =>
      intro i hi
      exact (List.mem_append.1 hi).elim (assembleLine_wellFormed hl i) (ih hls i)

/-- Settles O54: a text's commands are those of its lines, which are well formed, and so their words decode to them. -/
theorem assembledTextDecodes : Obligations.AssembledTextDecodes := by
  intro text cmds h i hi
  rw [assembleText] at h
  split at h
  next ls hls =>
    have hwf := assembleLines_wellFormed h i hi
    have hdecode := decode_encode i [] hwf
    rw [List.append_nil] at hdecode
    exact ⟨hwf, hdecode⟩
  next => cases h

/-! ### The operands (R63, R68) -/

/-- A word is the pattern of `n` exactly when it is `n` modulo 2^64 (R63). -/
theorem ofInt_eq_iff (n : Int) (v : Word) : BitVec.ofInt 64 n = v ↔ (v.toNat : Int) = n % 2 ^ 64 := by
  rw [← BitVec.toNat_inj, BitVec.toNat_ofInt]
  omega

theorem seedOperand_eq_some (n : Int) (v : Word) :
    seedOperand n = some v ↔ -(2 ^ 63) ≤ n ∧ n < 2 ^ 64 ∧ (v.toNat : Int) = n % 2 ^ 64 := by
  rw [seedOperand, ← ofInt_eq_iff]
  split
  next h => rw [Option.some_inj]; tauto
  next h => exact ⟨nofun, fun ⟨hlow, hhigh, _⟩ => absurd ⟨hlow, hhigh⟩ h⟩

theorem assembleCommand_seed (n : Int) (v : Word) :
    assembleCommand (.seed n) = some (.seed v) ↔ seedOperand n = some v := by
  rw [assembleCommand]
  split
  next w hw => simp [hw]
  next hw => simp [hw]

/-- A key operand stands for itself (R68). -/
theorem keyOperand_toNat {n : Int} {w : Word} (h : keyOperand n = some w) : n = w.toNat := by
  rw [keyOperand] at h
  split at h <;> cases h
  next hrange => rw [(ofInt_eq_iff n _).1 rfl, Int.emod_eq_of_lt hrange.1 hrange.2]

theorem keyOperands_toNat {ns : List Int} {keys : List Word} (h : keyOperands ns = some keys) :
    ns = keys.map fun w => (w.toNat : Int) := by
  induction ns generalizing keys with
  | nil => cases h; rfl
  | cons n ns ih =>
    rw [keyOperands] at h
    split at h <;> cases h
    next w ws hw hws => rw [List.map_cons, ← keyOperand_toNat hw, ← ih hws]

theorem assembleCommand_seedArray {ns : List Int} {keys : List Word}
    (h : assembleCommand (.seedArray ns) = some (.seedArray keys)) : keyOperands ns = some keys ∧ 1 ≤ keys.length := by
  rw [assembleCommand] at h
  split at h
  next keys' hkeys =>
    split at h <;> cases h
    next hlen => exact ⟨hkeys, hlen.1⟩
  next => cases h

/-- Settles O55: the operand checks are the ranges, and an accepted operand is the number itself, for SEED modulo 2^64. -/
theorem assemblerOperandRanges : Obligations.AssemblerOperandRanges := by
  constructor
  · intro n v
    rw [assembleCommand_seed, seedOperand_eq_some]
  · intro ns keys h
    obtain ⟨hkeys, hpos⟩ := assembleCommand_seedArray h
    exact ⟨List.ne_nil_of_length_pos hpos, keyOperands_toNat hkeys⟩

end Sys2Proof.Machine
